-- ==== Sys2Proof/Word.lean ====
section
/-! DEFINITION. The bit, the bit sequence and the request word (00_scope.md R11, 30_encoding.md R34). -/

namespace Sys2Proof

/-- `Bit = {0, 1}`, `0` logical false and `1` logical true (R11). -/
abbrev Bit := Bool

/-- A bit sequence, index 0 least significant (R11, R26). -/
abbrev BitSeq := List Bit

/-- The request word `req[2W+2:0]` of an instance of width `W` (R34, R39). -/
abbrev ReqWord (W : Nat) := BitVec (2 * W + 3)

end Sys2Proof
end

