-- ==== Sys2Proof/Machine/GridMap.lean ====
section
/-! DEFINITION. The map of the signal grid: what drives each entry, and what reads it (10_state.md R20, R21,
43_array_engine.md R73 to R79, R81, R111). -/

namespace Sys2Proof.Machine

/-- What drives grid position `(i, j)` (R81). -/
inductive Site
  /-- `S` of row 0: `a[j] ∧ b[0]` (R74). -/
  | rowSeed
  /-- `S` of a later row: `a[W-1] ∧ b[i]` (R75). -/
  | diagonalSeed
  /-- `P`: a PPU cell, writing `sum` and `carry` (R76). -/
  | cell
  /-- `F`: a full adder of the final row, writing `sum` and `carry` (R77). -/
  | adder
  /-- `.`: never written, the constant 0 (R73). -/
  | unwritten
deriving DecidableEq, Repr

/-- The map (R81), total on all indices: outside rows `0..W` and columns `0..2W-1` nothing is written. -/
def site (W i j : Nat) : Site :=
  if i = 0 then (if j < W then .rowSeed else .unwritten)
  else if i < W then
    if i ≤ j ∧ j + 2 ≤ i + W then .cell
    else if j + 1 = W + i then .diagonalSeed
    else .unwritten
  else if i = W ∧ W ≤ j ∧ j + 2 ≤ 2 * W then .adder
  else .unwritten

/-- A net of the grid (R20). -/
inductive Net
  | sum (i j : Nat)
  | carry (i j : Nat)
deriving DecidableEq, Repr

/-- Whether some step of the algorithm writes the net (R81). -/
def Net.written (W : Nat) : Net → Bool
  | .sum i j => decide (site W i j ≠ .unwritten)
  | .carry i j => decide (site W i j = .cell ∨ site W i j = .adder)

/-- What reads nets: a cell, a full adder, or a result bit (R81). -/
inductive Reader
  | cellAt (i j : Nat)
  | adderAt (j : Nat)
  | resultAt (k : Nat)
deriving DecidableEq, Repr

/-- The net result bit `k` is taken from, `k` in `[0, 2W)` (R79). -/
def resultNet (W k : Nat) : Net :=
  if k < W then .sum k k
  else if k + 1 < 2 * W then .sum W k
  else .carry W (2 * W - 2)

/-- The nets a reader reads (R76, R77, R79). -/
def Reader.reads (W : Nat) : Reader → List Net
  | .cellAt i j => [.carry (i - 1) (j - 1), .sum (i - 1) j]
  | .adderAt j => [.sum (W - 1) j, .carry (W - 1) (j - 1), .carry W (j - 1)]
  | .resultAt k => [resultNet W k]

/-- All readers of the grid of width `W`: the cells, the full adders, the `2W` result bits. -/
def readers (W : Nat) : List Reader :=
  ((List.range (W + 1)).flatMap fun i =>
    ((List.range (2 * W)).filter fun j => site W i j = .cell).map fun j => Reader.cellAt i j) ++
  (((List.range (2 * W)).filter fun j => site W W j = .adder).map Reader.adderAt) ++
  ((List.range (2 * W)).map Reader.resultAt)

/-- A rank of the positions that every read descends, the model's own device for the order of R111: the row, and in
the final row also the adders up to the column. It bounds the cells and adders in series before a position from above
(R114), and is not that number at every position (a diagonal seed has none before it). -/
def level (W i j : Nat) : Nat :=
  if i < W then i else (W - 1) + (j + 1 - W)

/-- The level of a net's position. -/
def Net.level (W : Nat) : Net → Nat
  | .sum i j => Machine.level W i j
  | .carry i j => Machine.level W i j

end Sys2Proof.Machine
end

