-- ==== Sys2Proof/Config.lean ====
section
/-! DEFINITION. What is fixed when the block is built, and the values the spec leaves open (00_scope.md R7, R10). -/

namespace Sys2Proof

/-- The three functions the source names and never gives (R10): parameters of every definition and law about
the cells, total functions of their arguments and of nothing else (42_ppu_cells.md R67). -/
structure OpenCells where
  /-- `CELL2 : Bit^4 -> Bit^2`, the whole `approx2` cell, arguments `(a, b, c_in, s_in)`, result
  `(s_out, c_out)` (R61). -/
  cell2 : Bit → Bit → Bit → Bit → Bit × Bit
  /-- `T7_3 : Bit^4 -> Bit`, signal t7 of `approx3`, arguments `(a, b, c_in, s_in)` (R63). -/
  t7of3 : Bit → Bit → Bit → Bit → Bit
  /-- `T6_4 : Bit^3 -> Bit`, signal t6 of `approx4`, arguments `(a, c_in, s_in)` (R65). -/
  t6of4 : Bit → Bit → Bit → Bit

/-- `CELL2` of the machine: a free value, nothing constrains it (R61, 92_eei_decisions.md D11; log 5). -/
opaque Config.cell2 : Bit → Bit → Bit → Bit → Bit × Bit

/-- `T7_3` of the machine: a free value (R63, D11; log 5). -/
opaque Config.t7of3 : Bit → Bit → Bit → Bit → Bit

/-- `T6_4` of the machine: a free value (R65, D11; log 5). -/
opaque Config.t6of4 : Bit → Bit → Bit → Bit

/-- The open functions of the machine whose step is `Machine.step`, one choice for its whole life (R67). -/
def Config.openCells : OpenCells where
  cell2 := Config.cell2
  t7of3 := Config.t7of3
  t6of4 := Config.t6of4

/-- The `n`-th unspecified value of the `2W` wires of `product_o`: what the output shows while an input is
undriven or changing (70_reset_and_hazards.md R107, 93_implementation_defined.md U3). A free value; DESIGN CHOICE:
one sequence of them for each width, the same for every instance of that width (log 4). -/
opaque Config.unspecifiedProduct (W n : Nat) : BitVec (2 * W)

/-- The width of the conventional instance, the one spec/opcode_table.json is written for (R7).
DESIGN CHOICE (log 1): the machine right after reset is this instance. -/
def Config.conventionalWidth : Nat := 8

end Sys2Proof
end

