-- ==== Sys2Proof/Machine/Codec.lean ====
section
/-! DEFINITION. The BitVector codec, ENCODE and DECODE (40_codec.md R44 to R50). -/

namespace Sys2Proof.Machine

/-- Bit `k` of a sequence. The engine reads indices inside the sequence only; past its end the answer is 0. -/
def bitAt (bits : BitSeq) (k : Nat) : Bit :=
  bits.getD k false

/-- The number 0 or 1 a bit stands for (R11). -/
def bitValue (x : Bit) : Nat :=
  x.toNat

/-- `ENCODE` (R45): bit `i` is `(value >> i) & 1`, for `i` in `[0, W)`. Applied to any natural as written, so an
operand outside `[0, 2^W)` is masked (R46). -/
def encodeBits (value W : Nat) : BitSeq :=
  (List.range W).map fun i => decide ((value >>> i) &&& 1 = 1)

/-- `DECODE` (R47): the number whose bit `i` is entry `i`, least significant first. -/
def decodeBits : BitSeq → Nat
  | [] => 0
  | x :: xs => bitValue x + 2 * decodeBits xs

end Sys2Proof.Machine
end

