-- ==== Sys2Proof/Machine/FullAdder.lean ====
section
/-! DEFINITION. The exact full adder, FA (41_full_adder.md R51 to R54). -/

namespace Sys2Proof.Machine

/-- `FA`: the sum bit first, the carry second (R51, R42). -/
def fullAdder (a b cIn : Bit) : Bit × Bit :=
  (a ^^ b ^^ cIn, (a && b) || (cIn && (a ^^ b)))

end Sys2Proof.Machine
end

