-- ==== Sys2Proof/Syntax.lean ====
section
/-! DEFINITION. The five port-level operations (30_encoding.md R33), one constructor per row of
spec/opcode_table.json, and the five-valued variant selector (00_scope.md R9). -/

namespace Sys2Proof

/-- The variant selector, a closed set (R9, R33). -/
inductive Variant
  | exact
  | approx1
  | approx2
  | approx3
  | approx4
deriving DecidableEq, Repr

/-- An operation `MUL.<variant> a, b` (R33, R41). Operands are natural numbers (40_codec.md R44): in range they
are the port values, and a larger natural is the integer-level call of R42 and R98. -/
inductive Instr
  /-- `MUL.EXACT a, b` (R82). -/
  | mulExact (a b : Nat)
  /-- `MUL.APPROX1 a, b` (R83). -/
  | mulApprox1 (a b : Nat)
  /-- `MUL.APPROX2 a, b` (R84). -/
  | mulApprox2 (a b : Nat)
  /-- `MUL.APPROX3 a, b` (R85). -/
  | mulApprox3 (a b : Nat)
  /-- `MUL.APPROX4 a, b` (R86). -/
  | mulApprox4 (a b : Nat)
deriving DecidableEq, Repr

/-- A request, the triple `(variant, a, b)` as a host presents it on the input ports (R12, R34): the selector is
the three wires of `variant_i`, so it can carry a reserved code. -/
structure Request where
  variant : BitVec 3
  a : Nat
  b : Nat
deriving DecidableEq, Repr

end Sys2Proof
end

