-- ==== Sys2Proof/Machine/PpuCells.lean ====
section
/-! DEFINITION. The PPU logic library: the five cells and their selection (42_ppu_cells.md R55 to R70). -/

namespace Sys2Proof.Machine

/-- A cell: arguments `(a, b, c_in, s_in)`, result `(s_out, c_out)` (R55). -/
abbrev Cell := Bit → Bit → Bit → Bit → Bit × Bit

/-- `PPU.EXACT` (R58). -/
def ppuExact : Cell := fun a b cIn sIn =>
  let p := a && b
  (p ^^ cIn ^^ sIn, (p && cIn) || (sIn && (p ^^ cIn)))

/-- `PPU.APPROX1` (R59): the operand bits are ignored and the carry is a NAND, kept as the source has it
(90_conflicts.md C5; log 14). -/
def ppuApprox1 : Cell := fun _ _ cIn sIn =>
  (cIn ^^ sIn, !(sIn && cIn))

/-- `PPU.APPROX2` (R61): the open function `CELL2`. -/
def ppuApprox2 (p : OpenCells) : Cell := fun a b cIn sIn =>
  p.cell2 a b cIn sIn

/-- `PPU.APPROX3` (R63), over the open signal `T7_3`: `s_out = ¬t7`, `c_out = ¬s_out`. -/
def ppuApprox3 (p : OpenCells) : Cell := fun a b cIn sIn =>
  let sOut := !(p.t7of3 a b cIn sIn)
  (sOut, !sOut)

/-- `PPU.APPROX4` (R65), over the open signal `T6_4`; `b` is ignored. -/
def ppuApprox4 (p : OpenCells) : Cell := fun a _ cIn sIn =>
  ((sIn ^^ cIn) ^^ a, !(p.t6of4 a cIn sIn))

/-- `CELL(variant)` (R57). -/
def cellOf (p : OpenCells) : Variant → Cell
  | .exact => ppuExact
  | .approx1 => ppuApprox1
  | .approx2 => ppuApprox2 p
  | .approx3 => ppuApprox3 p
  | .approx4 => ppuApprox4 p

/-- The weighted output of a cell, `s_out + 2·c_out` (R56). -/
def weight (out : Bit × Bit) : Nat :=
  bitValue out.1 + 2 * bitValue out.2

/-- `err_F` (R70): what the cell puts out, less what the reference would. -/
def cellError (F : Cell) (a b cIn sIn : Bit) : Int :=
  (weight (F a b cIn sIn) : Int) - (bitValue (a && b) + bitValue cIn + bitValue sIn : Nat)

/-- The truth table of a cell, row index `8a + 4b + 2c_in + s_in` (R43, R69). -/
def truthTable (F : Cell) : List (Bit × Bit) :=
  (List.range 16).map fun r => F (r.testBit 3) (r.testBit 2) (r.testBit 1) (r.testBit 0)

end Sys2Proof.Machine
end

