-- ==== Sys2Proof/Machine/Engine.lean ====
section
/-! DEFINITION. The array multiplier engine (43_array_engine.md R71 to R80): the grid as a function of the cell
`F` and the encoded operands, by recursion on the row and, in the final row, on the column (R95, R111). Each net
is a pair (sum, carry) of its position. -/

namespace Sys2Proof.Machine

/-- Rows `0` to `W-1` (R73 to R76). -/
def cellRow (F : Cell) (W : Nat) (a b : BitSeq) : Nat → Nat → Bit × Bit
  | 0, j =>
    match site W 0 j with
    | .rowSeed => (bitAt a j && bitAt b 0, false)
    | _ => (false, false)
  | i + 1, j =>
    match site W (i + 1) j with
    | .diagonalSeed => (bitAt a (W - 1) && bitAt b (i + 1), false)
    | .cell =>
      F (bitAt a (j - (i + 1))) (bitAt b (i + 1)) (cellRow F W a b i (j - 1)).2 (cellRow F W a b i j).1
    | _ => (false, false)

/-- Row `W`, the ripple-carry row of exact full adders whatever `F` is (R77, R78). -/
def finalRow (F : Cell) (W : Nat) (a b : BitSeq) : Nat → Bit × Bit
  | 0 => (false, false)
  | j + 1 =>
    match site W W (j + 1) with
    | .adder =>
      fullAdder (cellRow F W a b (W - 1) (j + 1)).1 (cellRow F W a b (W - 1) j).2 (finalRow F W a b j).2
    | _ => (false, false)

/-- The nets at position `(i, j)`. -/
def netAt (F : Cell) (W : Nat) (a b : BitSeq) (i j : Nat) : Bit × Bit :=
  if i = W then finalRow F W a b j else cellRow F W a b i j

/-- The net `sum[i][j]` (R20). -/
def sumNet (F : Cell) (W : Nat) (a b : BitSeq) (i j : Nat) : Bit :=
  (netAt F W a b i j).1

/-- The net `carry[i][j]` (R20). -/
def carryNet (F : Cell) (W : Nat) (a b : BitSeq) (i j : Nat) : Bit :=
  (netAt F W a b i j).2

/-- The value of a net. -/
def Net.value (F : Cell) (W : Nat) (a b : BitSeq) : Net → Bit
  | .sum i j => sumNet F W a b i j
  | .carry i j => carryNet F W a b i j

/-- `result[k]` (R79). -/
def resultBit (F : Cell) (W : Nat) (a b : BitSeq) (k : Nat) : Bit :=
  (resultNet W k).value F W a b

/-- `result[0..2W-1]` (R19, R79). -/
def resultBits (F : Cell) (W : Nat) (a b : BitSeq) : BitSeq :=
  (List.range (2 * W)).map (resultBit F W a b)

/-- The whole algorithm over a cell function: encode, fill the grid, decode the result (R71, R72, R80).
The rule defines it for `W ≥ 1`. DESIGN CHOICE (log 20): as a total function of natural widths it gives 0 at `W = 0`,
which no step, meaning or `multiply` answers (they refuse, R97). -/
def mulWith (F : Cell) (W aValue bValue : Nat) : Nat :=
  decodeBits (resultBits F W (encodeBits aValue W) (encodeBits bValue W))

/-- `MUL(variant, a_value, b_value)` at width `W` (R71), the open functions given; at `W = 0` see log 20. -/
def mul (p : OpenCells) (v : Variant) (W aValue bValue : Nat) : Nat :=
  mulWith (cellOf p v) W aValue bValue

end Sys2Proof.Machine
end

