-- ==== Sys2Proof/WellFormed.lean ====
section
/-! DEFINITION. When an operation can stand on the ports of an instance of width `W` (00_scope.md R7, 40_codec.md R44). -/

namespace Sys2Proof

/-- Operand `a` of an operation. -/
def Instr.operandA : Instr → Nat
  | .mulExact a _ => a
  | .mulApprox1 a _ => a
  | .mulApprox2 a _ => a
  | .mulApprox3 a _ => a
  | .mulApprox4 a _ => a

/-- Operand `b` of an operation. -/
def Instr.operandB : Instr → Nat
  | .mulExact _ b => b
  | .mulApprox1 _ b => b
  | .mulApprox2 _ b => b
  | .mulApprox3 _ b => b
  | .mulApprox4 _ b => b

/-- Well-formed at width `W`: `W ≥ 1` (R7) and both operands in `[0, 2^W)` (R36, R44). -/
def Instr.wf (W : Nat) (i : Instr) : Bool :=
  decide (1 ≤ W) && decide (i.operandA < 2 ^ W) && decide (i.operandB < 2 ^ W)

end Sys2Proof
end

