-- ==== Sys2Proof/Decode.lean ====
section
/-! DEFINITION. The request word: its fields, the decoder, the encoder (30_encoding.md R34 to R40). -/

namespace Sys2Proof

/-- The selector code of a variant (R35). -/
def Variant.code : Variant → BitVec 3
  | .exact => 0
  | .approx1 => 1
  | .approx2 => 2
  | .approx3 => 3
  | .approx4 => 4

/-- The variant of an operation (R33). -/
def Instr.variant : Instr → Variant
  | .mulExact _ _ => .exact
  | .mulApprox1 _ _ => .approx1
  | .mulApprox2 _ _ => .approx2
  | .mulApprox3 _ _ => .approx3
  | .mulApprox4 _ _ => .approx4

/-- The operation of a variant on two operands (R33). -/
def Instr.ofVariant : Variant → Nat → Nat → Instr
  | .exact, a, b => .mulExact a b
  | .approx1, a, b => .mulApprox1 a b
  | .approx2, a, b => .mulApprox2 a b
  | .approx3, a, b => .mulApprox3 a b
  | .approx4, a, b => .mulApprox4 a b

/-- The table's mnemonic of an operation (R33, R41). -/
def Instr.mnemonic (i : Instr) : String :=
  match i.variant with
  | .exact => "MUL.EXACT"
  | .approx1 => "MUL.APPROX1"
  | .approx2 => "MUL.APPROX2"
  | .approx3 => "MUL.APPROX3"
  | .approx4 => "MUL.APPROX4"

/-- The assembly form `MUL.<VARIANT> a, b`, operands in decimal (R41). -/
def Instr.assembly (i : Instr) : String :=
  i.mnemonic ++ " " ++ toString i.operandA ++ ", " ++ toString i.operandB

/-- Why a request word names no operation. -/
inductive Reject
  /-- The selector code is 5, 6 or 7 (R38); the code is recorded (R99). -/
  | reservedVariant (code : BitVec 3)
  /-- The instance has `W = 0` (R7, R97). -/
  | zeroWidth
deriving DecidableEq, Repr

/-- Field `variant`, `req[2W+2:2W]` (R34). -/
def reqVariant (W : Nat) (req : ReqWord W) : BitVec 3 :=
  req.extractLsb' (2 * W) 3

/-- Field `b`, `req[2W-1:W]` (R34). -/
def reqB (W : Nat) (req : ReqWord W) : Nat :=
  (req.extractLsb' W W).toNat

/-- Field `a`, `req[W-1:0]` (R34). -/
def reqA (W : Nat) (req : ReqWord W) : Nat :=
  (req.extractLsb' 0 W).toNat

/-- `decode_req` (R40), for an instance of width `W ≥ 1`; an instance of width 0 decodes nothing (R97). -/
def decodeReq (W : Nat) (req : ReqWord W) : Except Reject Instr :=
  if W = 0 then .error .zeroWidth
  else if reqVariant W req = 0 then .ok (.mulExact (reqA W req) (reqB W req))
  else if reqVariant W req = 1 then .ok (.mulApprox1 (reqA W req) (reqB W req))
  else if reqVariant W req = 2 then .ok (.mulApprox2 (reqA W req) (reqB W req))
  else if reqVariant W req = 3 then .ok (.mulApprox3 (reqA W req) (reqB W req))
  else if reqVariant W req = 4 then .ok (.mulApprox4 (reqA W req) (reqB W req))
  else .error (.reservedVariant (reqVariant W req))

/-- The word `{variant[2:0], b[W-1:0], a[W-1:0]}` (R34); of each operand the `W` bits the field has (R36). -/
def packReq (W : Nat) (code : BitVec 3) (a b : Nat) : ReqWord W :=
  BitVec.ofNat (2 * W + 3) (code.toNat * 2 ^ (2 * W) + b % 2 ^ W * 2 ^ W + a % 2 ^ W)

/-- The request word of an operation (R34, R35). -/
def encodeReq (W : Nat) (i : Instr) : ReqWord W :=
  packReq W i.variant.code i.operandA i.operandB

/-- The word of a row of spec/opcode_table.json, which is written for the conventional instance, through the
decoder. A word with a bit at or above `2W+3` is no request word: there is one request length (R39).
DESIGN CHOICE (log 11): how a host's container of `nbits` bits carries the word is left to the host (R27). Here the
bits of `w` at or above `nbits` are dropped, and a container shorter than `2W+3` bits is filled up with zeros. -/
def decodeTableWord (nbits w : Nat) : Option Instr :=
  if w % 2 ^ nbits < 2 ^ (2 * Config.conventionalWidth + 3) then
    (decodeReq Config.conventionalWidth (BitVec.ofNat _ (w % 2 ^ nbits))).toOption
  else none

end Sys2Proof
end

