-- ==== Sys2Proof/Machine/State.lean ====
section
/-! DEFINITION. The state (10_state.md R13, R18), the reasons a step stops (60_exceptions.md R97), and reset. -/

namespace Sys2Proof.Machine

/-- What a step reads and what it shows. The block stores nothing (R13): `width` is the instance's build-time
parameter, the next three fields are what is on its input ports, `productO` is what is on its output port.
A port without a value is one that is not steadily driven: undriven, or changing (R107, R112; log 3). -/
structure State where
  /-- The operand width `W`, fixed per instance (R7; log 1). -/
  width : Nat
  /-- Port `variant_i`, 3 wires (R18). -/
  variantI : Option (BitVec 3)
  /-- Port `a_i`, `W` wires read as an unsigned number (R18). -/
  aI : Option Nat
  /-- Port `b_i`, `W` wires read as an unsigned number (R18). -/
  bI : Option Nat
  /-- Port `product_o`, `2W` wires read as an unsigned number (R18). -/
  productO : Nat
  /-- THE MODEL'S OWN (log 4): how many free values of `product_o` have been drawn. -/
  freeIndex : Nat
deriving DecidableEq, Repr

/-- The block has no fault (R97: "There is no fault outcome, no stuck outcome and no hang"; R100), so no
constructor: nothing raises one, and that is exact. -/
inductive Fault
deriving DecidableEq, Repr

/-- Why the model gives a request no meaning (R97, "The closed list of reasons"). -/
inductive Refusal
  /-- Raised by `exec`'s arm of an instruction without a meaning. Safe. No arm of this model raises it. -/
  | notModelled (mnemonic : String)
  /-- Raised by `step` on a request whose selector code is 5, 6 or 7 (R38, R99); records the code.
  Safe: nothing is claimed of what the circuit drives (U2). -/
  | reservedVariant (code : BitVec 3)
  /-- Raised by `step` and by every meaning on an instance of width 0 (R7, R97). Safe. -/
  | zeroWidth
deriving DecidableEq, Repr

/-- Right after power-up (R24, R107): the conventional instance (log 1), no input driven yet (log 3), the output
unspecified, which is the free value numbered 0 (log 4). -/
def State.reset : State where
  width := Config.conventionalWidth
  variantI := none
  aI := none
  bI := none
  productO := (Config.unspecifiedProduct Config.conventionalWidth 0).toNat
  freeIndex := 1

end Sys2Proof.Machine
end

