-- ==== Sys2Proof/Machine/Ops.lean ====
section
/-! DEFINITION. The named operations over the ports: what a meaning does to the output, and what the host does to
the inputs (10_state.md R18, 60_exceptions.md R97, R101). -/

namespace Sys2Proof.Machine

/-- Drive `product_o`. -/
def State.withProduct (s : State) (product : Nat) : State :=
  { s with productO := product }

/-- End a request with its product (R97); an instance of width 0 has no requests (R7). -/
def State.answer (s : State) (product : Nat) : Host.Outcome State Fault Refusal :=
  if s.width = 0 then .refused .zeroWidth else .next (s.withProduct product)

/-- The output while it is not settled for a steady request: any value of the `2W` wires (R107, R110, R112, U3;
log 4). DESIGN CHOICE (log 4): the value is a function of the width and of the counter, so two states equal in both,
two fresh resets among them, show the same one, where nothing ties two instances together (R31). -/
def State.unspecified (s : State) : State :=
  { s with
    productO := (Config.unspecifiedProduct s.width s.freeIndex).toNat
    freeIndex := s.freeIndex + 1 }

/-- The refusal of a rejected request word (R97, R99). -/
def Refusal.ofReject : Reject → Refusal
  | .reservedVariant code => .reservedVariant code
  | .zeroWidth => .zeroWidth

/-- The host drives the three input ports (R101): any values, of each operand the `W` wires the port has.
Until the nets have settled, which is the next step, `product_o` is any value (R110, R112, U3): a free value (log 4). -/
def State.present (s : State) (r : Request) : State :=
  State.unspecified { s with
    variantI := some r.variant
    aI := some (r.a % 2 ^ s.width)
    bI := some (r.b % 2 ^ s.width) }

/-- The host stops driving the inputs steadily (R107, R112). From that moment `product_o` is any value (U3), so the
output is a free value at once, before any step (log 4). -/
def State.undrive (s : State) : State :=
  State.unspecified { s with variantI := none, aI := none, bI := none }

end Sys2Proof.Machine
end

