-- ==== Sys2Proof/Machine/Mul.lean ====
section
/-! DEFINITION. The meanings of the five operations (43_array_engine.md R82 to R86). Each drives `product_o` with
rule R71 over its own cell, and changes nothing else: no flag, no exception (R16, R96). -/

namespace Sys2Proof.Machine

/-- `MUL.EXACT a, b` (R82). -/
def execMulExact (a b : Nat) (s : State) : Host.Outcome State Fault Refusal :=
  s.answer (mulWith ppuExact s.width a b)

/-- `MUL.APPROX1 a, b` (R83). -/
def execMulApprox1 (a b : Nat) (s : State) : Host.Outcome State Fault Refusal :=
  s.answer (mulWith ppuApprox1 s.width a b)

/-- `MUL.APPROX2 a, b` (R84). -/
def execMulApprox2 (a b : Nat) (s : State) : Host.Outcome State Fault Refusal :=
  s.answer (mulWith (ppuApprox2 Config.openCells) s.width a b)

/-- `MUL.APPROX3 a, b` (R85). -/
def execMulApprox3 (a b : Nat) (s : State) : Host.Outcome State Fault Refusal :=
  s.answer (mulWith (ppuApprox3 Config.openCells) s.width a b)

/-- `MUL.APPROX4 a, b` (R86). -/
def execMulApprox4 (a b : Nat) (s : State) : Host.Outcome State Fault Refusal :=
  s.answer (mulWith (ppuApprox4 Config.openCells) s.width a b)

end Sys2Proof.Machine
end

