-- ==== Sys2Proof/Machine/Dispatch.lean ====
section
/-! DEFINITION. One arm per operation. -/

namespace Sys2Proof.Machine

def exec (i : Instr) (s : State) : Host.Outcome State Fault Refusal :=
  match i with
  | .mulExact a b => Sys2Proof.Machine.execMulExact a b s
  | .mulApprox1 a b => Sys2Proof.Machine.execMulApprox1 a b s
  | .mulApprox2 a b => Sys2Proof.Machine.execMulApprox2 a b s
  | .mulApprox3 a b => Sys2Proof.Machine.execMulApprox3 a b s
  | .mulApprox4 a b => Sys2Proof.Machine.execMulApprox4 a b s

end Sys2Proof.Machine
end

