-- ==== Sys2Proof/Machine/Operands.lean ====
section
/-! DEFINITION. Operand assembly: the request that stands on the input ports (10_state.md R18, 30_encoding.md R34, R36). -/

namespace Sys2Proof.Machine

/-- The request word on the ports, when every input is steadily driven; of `a_i` and `b_i` the `W` wires there
are. The block answers three inputs taken together (R29), so a request that lacks one is no request. -/
def State.requestWord (s : State) : Option (ReqWord s.width) :=
  match s.variantI, s.aI, s.bI with
  | some code, some a, some b => some (packReq s.width code a b)
  | _, _, _ => none

end Sys2Proof.Machine
end

