-- ==== Sys2Proof/Machine/Step.lean ====
section
/-! DEFINITION. One step: the request on the ports taken to its settled product (70_reset_and_hazards.md R110,
R115). -/

namespace Sys2Proof.Machine

/-- A run is one request and one step (R115). An instance of width 0 is refused before any request (R103). With an
input that is not steadily driven the block goes on and its output is unspecified (R107, R112). -/
def step (s : State) : Host.Outcome State Fault Refusal :=
  if s.width = 0 then .refused .zeroWidth
  else
    match s.requestWord with
    | none => .next s.unspecified
    | some req =>
      match decodeReq s.width req with
      | .ok i => exec i s
      | .error r => .refused (Refusal.ofReject r)

/-- The request word `w` of spec/opcode_table.json presented on the ports of the instance that table is written
for (log 11): its three fields driven on the three input ports, the output not settled yet (log 4).
The container of `nbits` bits is read as `decodeTableWord` reads it (DESIGN CHOICE, log 11). -/
def State.withFetchWord (s : State) (nbits w : Nat) : State :=
  let req : ReqWord Config.conventionalWidth := BitVec.ofNat _ (w % 2 ^ nbits)
  State.present { s with width := Config.conventionalWidth }
    { variant := reqVariant _ req, a := reqA _ req, b := reqB _ req }

end Sys2Proof.Machine
end

