-- ==== Sys2Proof/Machine/HostLoop.lean ====
section
/-! DEFINITION. The host's side of the ports (60_exceptions.md R101): one request after another on one instance,
and the table the source's exporter enumerates. -/

namespace Sys2Proof.Machine

/-- What the host gets back for a request: a product or a refusal (R97). -/
abbrev Response := Host.Outcome Nat Fault Refusal

/-- What the host samples after a step. -/
def response : Host.Outcome State Fault Refusal → Response
  | .next t => .next t.productO
  | .fault f => .fault f
  | .refused r => .refused r

/-- The host presents one request, holds it until the nets have settled, and samples the output (R112). A refused
request settles to nothing the model knows: it stays on the inputs and the output stays the free value of its
presentation (R38, R104, U2). -/
def serve (s : State) (r : Request) : State × Response :=
  match step (s.present r) with
  | .next t => (t, .next t.productO)
  | .fault f => (s.present r, .fault f)
  | .refused e => (s.present r, .refused e)

/-- A sequence of requests on one instance, and the responses in order (95_test_vectors.md section 3). -/
def serveAll : State → List Request → List Response
  | _, [] => []
  | s, r :: rs => (serve s r).2 :: serveAll (serve s r).1 rs

/-- The source's entry point `multiply(a, b, variant, width)`, the width an argument of the call (10_state.md R18,
R41): the product, or the refusal of `W = 0` (R97). -/
def multiply (p : OpenCells) (a b : Nat) (v : Variant) (width : Nat) : Response :=
  if width = 0 then .refused .zeroWidth else .next (mul p v width a b)

/-- The header row of the exporter's table: the column operand values (R101). DESIGN CHOICE (log 18): what stands in
the header above the row operands is open, and the row here has no entry for that corner. -/
def lutHeader (W : Nat) : List Nat :=
  List.range (2 ^ W)

/-- The rows under the header: the row operand `a`, then `MUL(variant, a, b)` for each `b` (R101). The exporter's
widths are those of an instance, `W ≥ 1`. DESIGN CHOICE (log 20): at `W = 0`, whose requests are refused, the function
gives the one row `[0, 0]`. -/
def lutRows (p : OpenCells) (v : Variant) (W : Nat) : List (List Nat) :=
  (List.range (2 ^ W)).map fun a => a :: (List.range (2 ^ W)).map fun b => mul p v W a b

end Sys2Proof.Machine
end

