-- ==== Sys2Proof/Safety.lean ====
section
/-! DEFINITION. The predicates the statements are made of: states whose ports hold what their wires can hold, the
host's duty, settled outputs, and the equations of the grid. -/

namespace Sys2Proof.Machine

/-- Every port holds a value its wires can hold (10_state.md R18), on an instance with `W ≥ 1` (R7). -/
def State.wf (s : State) : Bool :=
  decide (1 ≤ s.width) && s.aI.all (fun a => decide (a < 2 ^ s.width)) &&
    s.bI.all (fun b => decide (b < 2 ^ s.width)) && decide (s.productO < 2 ^ (2 * s.width))

/-- The ports hold the request `(code, a, b)`. -/
def State.Presents (s : State) (code : BitVec 3) (a b : Nat) : Prop :=
  s.variantI = some code ∧ s.aI = some a ∧ s.bI = some b

/-- Some input is not steadily driven (R107, R112). -/
def State.Unsteady (s : State) : Prop :=
  s.variantI = none ∨ s.aI = none ∨ s.bI = none

/-- The claims the source makes about the unknown cells and nothing in the spec can check (42_ppu_cells.md R62,
items 1 and 2; item 3 is about gates, which no function-level model can see): a hypothesis a claim may name. No
definition and no statement of this model assumes it. -/
structure SourceClaims (p : OpenCells) : Prop where
  /-- R62 (1): `approx2` and `approx3` differ on some input. -/
  approx2NeApprox3 : ppuApprox2 p ≠ ppuApprox3 p
  /-- R62 (2): each approximate cell differs from the exact cell on some input. -/
  approximate : ∀ v, v ≠ Variant.exact → cellOf p v ≠ ppuExact
  /-- R62 (2), "Variant divergence is bounded but nonzero", nonzero: at `W = 8` each approximate variant gives a
  wrong product for some operands. -/
  divergesAtWidth8 : ∀ v, v ≠ Variant.exact → ∃ a b, a < 2 ^ 8 ∧ b < 2 ^ 8 ∧ mul p v 8 a b ≠ a * b
  /-- R62 (2), bounded: at `W = 8` no product is `2^16` or more away from the true one. The source names no bound;
  this one, the range of the output port, is read here (DEDUCED; log 5). -/
  boundedAtWidth8 : ∀ v a b, a < 2 ^ 8 → b < 2 ^ 8 →
    ((mul p v 8 a b : Int) - (a * b : Nat)).natAbs < 2 ^ (2 * 8)

/-- `S` and `C` are settled values of the nets `sum` and `carry`: they satisfy rules R73 to R77 over the cell `F`
and the encoded operands `a`, `b`, written here over the index ranges of the rules. -/
structure GridEquations (F : Cell) (W : Nat) (a b : BitSeq) (S C : Nat → Nat → Bit) : Prop where
  /-- R74: row 0 is seeded. -/
  rowSeeds : ∀ j, j < W → S 0 j = (bitAt a j && bitAt b 0)
  /-- R75: the first diagonal is seeded. -/
  diagonalSeeds : ∀ i, 1 ≤ i → i < W → S i (W - 1 + i) = (bitAt a (W - 1) && bitAt b i)
  /-- R76: the interior cells. -/
  cells : ∀ i j, 1 ≤ i → i < W → i ≤ j → j ≤ i + W - 2 →
    (S i j, C i j) = F (bitAt a (j - i)) (bitAt b i) (C (i - 1) (j - 1)) (S (i - 1) j)
  /-- R77: the final row. -/
  adders : ∀ j, W ≤ j → j ≤ 2 * W - 2 →
    (S W j, C W j) = fullAdder (S (W - 1) j) (C (W - 1) (j - 1)) (C W (j - 1))
  /-- R73: a `sum` entry no rule writes is 0. -/
  sumUnwritten : ∀ i j, i ≤ W → j < 2 * W → ¬ (i = 0 ∧ j < W) →
    ¬ (1 ≤ i ∧ i < W ∧ i ≤ j ∧ j ≤ i + W - 1) → ¬ (i = W ∧ W ≤ j ∧ j ≤ 2 * W - 2) → S i j = false
  /-- R73: a `carry` entry no rule writes is 0. -/
  carryUnwritten : ∀ i j, i ≤ W → j < 2 * W →
    ¬ (1 ≤ i ∧ i < W ∧ i ≤ j ∧ j ≤ i + W - 2) → ¬ (i = W ∧ W ≤ j ∧ j ≤ 2 * W - 2) → C i j = false

end Sys2Proof.Machine
end

