-- ==== Sys2Proof/Certificates/Slice0/Obligations.lean ====
section
/-! DEFINITION. The statements for the provers. Each cites the rule of spec/ it formalises or rests on; a clause
that rests on a choice of this model names the log entry. -/

open Sys2Proof Sys2Proof.Machine

/-! ## The request word -/

/-- Words written out from the layout `{variant, b, a}` and the code table (95_test_vectors.md 2.7, P1 to P5),
one per operation and one per reserved code. Layout and codes are the spec's own decisions (D7, D3; log 6), and so is
that codes 5 to 7 are refused (D4; log 7). -/
def Obligations.SampleRequestWordsDecode : Prop :=
  decodeReq 4 0b00001110110#11 = .ok (.mulExact 6 7) ∧
  decodeReq 4 0b00101110110#11 = .ok (.mulApprox1 6 7) ∧
  decodeReq 2 0b0100000#7 = .ok (.mulApprox2 0 0) ∧
  decodeReq 2 0b0111111#7 = .ok (.mulApprox3 3 3) ∧
  decodeReq 2 0b1000001#7 = .ok (.mulApprox4 1 0) ∧
  decodeReq 8 0b0010000010100000011#19 = .ok (.mulApprox1 3 5) ∧
  decodeReq 2 0b1010000#7 = .error (.reservedVariant 5) ∧
  decodeReq 4 0b11001110110#11 = .error (.reservedVariant 6) ∧
  decodeReq 8 0b1110000000000000000#19 = .error (.reservedVariant 7)

/-- No bit of an encoding is dropped: every operation, at every width and with every operand the width admits.
Layout and codes are the spec's own decisions (D3, D7; log 6). -/
def Obligations.DecodeOfEncodeIsTheInstruction : Prop :=
  ∀ (W : Nat) (i : Instr), i.wf W = true → decodeReq W (encodeReq W i) = .ok i

/-- Each accepted word has one meaning, and that meaning is well-formed (D3, D7; log 6). -/
def Obligations.EncodeOfDecodeIsTheWord : Prop :=
  ∀ (W : Nat) (req : ReqWord W) (i : Instr),
    decodeReq W req = .ok i → i.wf W = true ∧ encodeReq W i = req

/-- `decode_req` (R40, which the spec derives from its own layout and codes, D3, D7; log 6), with the fields of the
word computed as numbers: `code = req[2W+2:2W]`, `b = req[2W-1:W]`, `a = req[W-1:0]`. That a code of 5 or more is
rejected with the code is the spec's own decision (D4; R38, R99; log 7). -/
def Obligations.DecodingFollowsTheSelectorField : Prop :=
  ∀ (W : Nat) (req : ReqWord W), 1 ≤ W →
    let code := req.toNat / 2 ^ (2 * W)
    let b := req.toNat / 2 ^ W % 2 ^ W
    let a := req.toNat % 2 ^ W
    (code = 0 → decodeReq W req = .ok (.mulExact a b)) ∧
    (code = 1 → decodeReq W req = .ok (.mulApprox1 a b)) ∧
    (code = 2 → decodeReq W req = .ok (.mulApprox2 a b)) ∧
    (code = 3 → decodeReq W req = .ok (.mulApprox3 a b)) ∧
    (code = 4 → decodeReq W req = .ok (.mulApprox4 a b)) ∧
    (5 ≤ code → decodeReq W req = .error (.reservedVariant (BitVec.ofNat 3 code)))

/-- The word on the ports carries the three port values (R34, R36). The layout is the spec's own decision (D7; log 6),
and of an operand out of range the `W` wires of the port are taken (D5; log 9). -/
def Obligations.PackedRequestFields : Prop :=
  ∀ (W : Nat) (code : BitVec 3) (a b : Nat),
    reqVariant W (packReq W code a b) = code ∧
    reqA W (packReq W code a b) = a % 2 ^ W ∧
    reqB W (packReq W code a b) = b % 2 ^ W

/-! ## The codec -/

/-- R45. -/
def Obligations.EncodedBitIsTheShiftedLowBit : Prop :=
  ∀ (value W : Nat), (encodeBits value W).length = W ∧
    ∀ i, i < W → bitValue (bitAt (encodeBits value W) i) = (value >>> i) &&& 1

/-- R46: masking is the spec's own decision D5 (log 9). -/
def Obligations.EncodeTakesTheOperandModulo : Prop :=
  ∀ (value W : Nat), encodeBits value W = encodeBits (value % 2 ^ W) W

/-- R47: `value = Σ bits[i] · 2^i`. That it lies below `2^L` is the spec's own inference from the rule. -/
def Obligations.DecodeIsTheWeightedSum : Prop :=
  ∀ bits : BitSeq,
    decodeBits bits = ∑ i ∈ Finset.range bits.length, bitValue (bitAt bits i) * 2 ^ i ∧
    decodeBits bits < 2 ^ bits.length

/-- R48: in range the operand itself, which the source asks for; for every natural its value modulo `2^W`, the
spec's own inference from its decision D5 (log 9). -/
def Obligations.DecodeOfEncodeIsTheOperand : Prop :=
  ∀ (value W : Nat), decodeBits (encodeBits value W) = value % 2 ^ W ∧
    (value < 2 ^ W → decodeBits (encodeBits value W) = value)

/-- R49, the spec's own inference. -/
def Obligations.EncodeOfDecodeIsTheSequence : Prop :=
  ∀ bits : BitSeq, encodeBits (decodeBits bits) bits.length = bits

/-! ## The full adder and the cells -/

/-- R51: the formula. The other clauses are the spec's own inference from it (R53): exact addition, the parity, the
majority carry, and symmetry. -/
def Obligations.FullAdderAddsThreeBits : Prop :=
  ∀ a b c : Bit,
    fullAdder a b c = (a ^^ b ^^ c, (a && b) || (c && (a ^^ b))) ∧
    bitValue (fullAdder a b c).1 + 2 * bitValue (fullAdder a b c).2 = bitValue a + bitValue b + bitValue c ∧
    bitValue (fullAdder a b c).1 = (bitValue a + bitValue b + bitValue c) % 2 ∧
    ((fullAdder a b c).2 = true ↔ 2 ≤ bitValue a + bitValue b + bitValue c) ∧
    fullAdder b a c = fullAdder a b c ∧ fullAdder a c b = fullAdder a b c

/-- R56 and R58: the exact cell is the full adder on the partial product. -/
def Obligations.ExactCellAddsThePartialProduct : Prop :=
  ∀ a b c s : Bit,
    ppuExact a b c s = (((a && b) ^^ c) ^^ s, ((a && b) && c) || (s && ((a && b) ^^ c))) ∧
    ppuExact a b c s = fullAdder (a && b) c s ∧
    weight (ppuExact a b c s) = bitValue (a && b) + bitValue c + bitValue s

/-- R59: the operand bits are ignored, the sum is an XOR, the carry a NAND. That the output pair differs from the
exact cell's on every input is the spec's own inference from R58 and R59. -/
def Obligations.Approx1CellIsXorAndNand : Prop :=
  ∀ a b c s : Bit,
    ppuApprox1 a b c s = (c ^^ s, !(s && c)) ∧ ppuApprox1 a b c s ≠ ppuExact a b c s

/-- The two whole tables of R69, which the spec computes from R58 and R59, row index `8a + 4b + 2c_in + s_in`
(R43). -/
def Obligations.CellTablesOfExactAndApprox1 : Prop :=
  truthTable ppuExact =
    [(false, false), (true, false), (true, false), (false, true),
     (false, false), (true, false), (true, false), (false, true),
     (false, false), (true, false), (true, false), (false, true),
     (true, false), (false, true), (false, true), (true, true)] ∧
  truthTable ppuApprox1 =
    [(false, true), (true, true), (true, true), (false, false),
     (false, true), (true, true), (true, true), (false, false),
     (false, true), (true, true), (true, true), (false, false),
     (false, true), (true, true), (true, true), (false, false)]

/-- R61: nothing is fixed but that the cell is the one open function of its four inputs (D11; log 5). -/
def Obligations.Approx2CellIsTheOpenFunction : Prop :=
  ∀ (p : OpenCells) (a b c s : Bit), ppuApprox2 p a b c s = p.cell2 a b c s

/-- R63, whatever `T7_3` is (log 5). The range of the outputs and the rows where the cell must differ from the exact
one are the spec's own inference (R64, from R63 and R69). -/
def Obligations.Approx3CarryIsComplementOfSum : Prop :=
  ∀ (p : OpenCells) (a b c s : Bit),
    ppuApprox3 p a b c s = (!(p.t7of3 a b c s), p.t7of3 a b c s) ∧
    (ppuApprox3 p a b c s).2 = !(ppuApprox3 p a b c s).1 ∧
    (weight (ppuApprox3 p a b c s) = 1 ∨ weight (ppuApprox3 p a b c s) = 2) ∧
    ((ppuExact a b c s = (false, false) ∨ ppuExact a b c s = (true, true)) ↔
      (a, b, c, s) = (false, false, false, false) ∨ (a, b, c, s) = (false, true, false, false) ∨
      (a, b, c, s) = (true, false, false, false) ∨ (a, b, c, s) = (true, true, true, true)) ∧
    ((ppuExact a b c s = (false, false) ∨ ppuExact a b c s = (true, true)) →
      ppuApprox3 p a b c s ≠ ppuExact a b c s)

/-- R65, whatever `T6_4` is (log 5). That neither output depends on `b` and where the sum is exact are the spec's own
inference (R66, from R65 and R58). -/
def Obligations.Approx4IgnoresBAndSumsParity : Prop :=
  ∀ (p : OpenCells) (a b b' c s : Bit),
    ppuApprox4 p a b c s = ((s ^^ c) ^^ a, !(p.t6of4 a c s)) ∧
    ppuApprox4 p a b c s = ppuApprox4 p a b' c s ∧
    ((ppuApprox4 p a b c s).1 = (ppuExact a b c s).1 ↔ a = false ∨ b = true)

/-- The cell errors of R70, the spec's own device: of the two fully given cells, and the bound for any cell. -/
def Obligations.CellErrorsOfExactAndApprox1 : Prop :=
  (∀ a b c s : Bit, cellError ppuExact a b c s = 0) ∧
  (∀ a b c s : Bit, cellError ppuApprox1 a b c s =
    if a && b then (if c && s then -3 else 1) else (if c && s then -2 else 2)) ∧
  (∀ (F : Cell) (a b c s : Bit), -3 ≤ cellError F a b c s ∧ cellError F a b c s ≤ 3)

/-- R57: the selector picks one of the five cells for a whole request. The product of the request is the result of
one grid, and every interior cell of that grid is the cell picked. -/
def Obligations.SelectorPicksTheCell : Prop :=
  (∀ p : OpenCells, cellOf p .exact = ppuExact ∧ cellOf p .approx1 = ppuApprox1 ∧
    cellOf p .approx2 = ppuApprox2 p ∧ cellOf p .approx3 = ppuApprox3 p ∧ cellOf p .approx4 = ppuApprox4 p) ∧
  ∀ (p : OpenCells) (v : Variant) (W aValue bValue : Nat), 1 ≤ W →
    let a := encodeBits aValue W
    let b := encodeBits bValue W
    let S := sumNet (cellOf p v) W a b
    let C := carryNet (cellOf p v) W a b
    mul p v W aValue bValue = decodeBits ((List.range (2 * W)).map fun k =>
      if k < W then S k k else if k < 2 * W - 1 then S W k else C W (2 * W - 2)) ∧
    ∀ i j, 1 ≤ i → i < W → i ≤ j → j ≤ i + W - 2 →
      (S i j, C i j) = cellOf p v (bitAt a (j - i)) (bitAt b i) (C (i - 1) (j - 1)) (S (i - 1) j)

/-! ## The grid -/

/-- R74 to R77: the nets of the model are settled values of the grid, for every cell, and entries no rule writes
are 0. -/
def Obligations.GridNetsFollowTheRules : Prop :=
  ∀ (F : Cell) (W : Nat) (a b : BitSeq), 1 ≤ W →
    GridEquations F W a b (sumNet F W a b) (carryNet F W a b)

/-- The settled value of every net exists and is unique, for any cell function (R111, the spec's own inference from
R76 and R77). -/
def Obligations.SettledNetsExistAndAreUnique : Prop :=
  ∀ (F : Cell) (W : Nat) (a b : BitSeq), 1 ≤ W →
    (∃ S C, GridEquations F W a b S C) ∧
    ∀ S C S' C' : Nat → Nat → Bit, GridEquations F W a b S C → GridEquations F W a b S' C' →
      ∀ i j, i ≤ W → j < 2 * W → S i j = S' i j ∧ C i j = C' i j

/-- The map of R81, which the spec derives from R73 to R79: which entries are written, that each written entry is read exactly once, and that the entries read but
never written are `carry[0][0..W-2]` and `carry[W][W-1]`. -/
def Obligations.EveryWrittenNetIsReadExactlyOnce : Prop :=
  ∀ W : Nat, 1 ≤ W →
    let read := (readers W).flatMap (Reader.reads W)
    (∀ i j, (Net.sum i j).written W = true ↔
      (i = 0 ∧ j ≤ W - 1) ∨ (1 ≤ i ∧ i ≤ W - 1 ∧ i ≤ j ∧ j ≤ i + W - 1) ∨
      (i = W ∧ W ≤ j ∧ j ≤ 2 * W - 2)) ∧
    (∀ i j, (Net.carry i j).written W = true ↔
      (1 ≤ i ∧ i ≤ W - 1 ∧ i ≤ j ∧ j ≤ i + W - 2) ∨ (i = W ∧ W ≤ j ∧ j ≤ 2 * W - 2)) ∧
    (∀ n : Net, n.written W = true → read.count n = 1) ∧
    (∀ n : Net, (n ∈ read ∧ n.written W = false) ↔
      (∃ j, j + 2 ≤ W ∧ n = .carry 0 j) ∨ n = .carry W (W - 1)) ∧
    (∀ i, Net.sum i (2 * W - 1) ∉ read ∧ Net.carry i (2 * W - 1) ∉ read)

/-- The counts the spec derives in R87: `2W-1` seeds, `(W-1)^2` cells, `W-1` full adders, and the seeds and cells are `W^2`. -/
def Obligations.GridSizeIsQuadratic : Prop :=
  ∀ W : Nat, 1 ≤ W →
    let sites := (List.range (W + 1)).flatMap fun i => (List.range (2 * W)).map fun j => site W i j
    sites.count .rowSeed + sites.count .diagonalSeed = 2 * W - 1 ∧
    sites.count .cell = (W - 1) ^ 2 ∧
    sites.count .adder = W - 1 ∧
    (2 * W - 1) + (W - 1) ^ 2 = W ^ 2

/-- No feedback, the spec's own inference (R111, from R76 and R77): what a cell or an adder reads stands at a lower
level than what it writes, and no written position has a level above `2(W-1)`. `level` is the model's own rank, not the
length of a chain; the bound is the length the spec infers for the longest chain (R114). -/
def Obligations.ReadsStandAtLowerLevels : Prop :=
  ∀ (W i j : Nat),
    (site W i j = .cell → ∀ n ∈ Reader.reads W (.cellAt i j), n.level W < level W i j) ∧
    (site W W j = .adder → ∀ n ∈ Reader.reads W (.adderAt j), n.level W < level W W j) ∧
    (site W i j ≠ .unwritten → level W i j ≤ 2 * (W - 1))

/-! ## The product -/

/-- R79 and R80: the result bits, and the product as their weighted sum; bit `k` of the product is `result[k]`. -/
def Obligations.ProductIsTheWeightedResultBits : Prop :=
  ∀ (F : Cell) (W aValue bValue : Nat), 1 ≤ W →
    let a := encodeBits aValue W
    let b := encodeBits bValue W
    (∀ i, i < W → resultBit F W a b i = sumNet F W a b i i) ∧
    (∀ i, W ≤ i → i < 2 * W - 1 → resultBit F W a b i = sumNet F W a b W i) ∧
    resultBit F W a b (2 * W - 1) = carryNet F W a b W (2 * W - 2) ∧
    (W = 1 → resultBit F W a b 1 = false) ∧
    mulWith F W aValue bValue = ∑ k ∈ Finset.range (2 * W), bitValue (resultBit F W a b k) * 2 ^ k ∧
    ∀ k, k < 2 * W → (mulWith F W aValue bValue).testBit k = resultBit F W a b k

/-- The range of R88, which the source asks for; that it holds for any cell function at all, the open parameters
included, is the spec's own inference from R79 and R80. At `W = 0`, where the rules define no product, it is said of
the model's value 0 (log 20). -/
def Obligations.ProductFitsTheOutputPort : Prop :=
  ∀ (F : Cell) (W a b : Nat), mulWith F W a b < 2 ^ (2 * W)

/-- The error identity of R89, the spec's own inference: over the integers, for any cell function. -/
def Obligations.ProductIsExactPlusWeightedCellErrors : Prop :=
  ∀ (F : Cell) (W aValue bValue : Nat), 1 ≤ W → aValue < 2 ^ W → bValue < 2 ^ W →
    let a := encodeBits aValue W
    let b := encodeBits bValue W
    (mulWith F W aValue bValue : Int) = (aValue * bValue : Nat) +
      ∑ i ∈ Finset.Ico 1 W, ∑ j ∈ Finset.Ico i (i + W - 1),
        cellError F (bitAt a (j - i)) (bitAt b i) (carryNet F W a b (i - 1) (j - 1))
          (sumNet F W a b (i - 1) j) * 2 ^ j

/-- R90, the spec's own inference: the exact grid multiplies, and the row-by-row form, at every width. -/
def Obligations.ExactGridMultipliesRowByRow : Prop :=
  ∀ W aValue bValue : Nat, 1 ≤ W → aValue < 2 ^ W → bValue < 2 ^ W →
    let a := encodeBits aValue W
    let b := encodeBits bValue W
    mulWith ppuExact W aValue bValue = aValue * bValue ∧
    ∀ i, i ≤ W - 1 →
      (∑ k ∈ Finset.range i, bitValue (sumNet ppuExact W a b k k) * 2 ^ k) +
      (∑ j ∈ Finset.Ico i (i + W), bitValue (sumNet ppuExact W a b i j) * 2 ^ j) +
      (∑ j ∈ Finset.Ico i (i + W - 1), bitValue (carryNet ppuExact W a b i j) * 2 ^ (j + 1)) =
      aValue * (bValue % 2 ^ (i + 1))

/-- The masking of R98 (the spec's own decision D5; log 9): at the integer level the operands are reduced modulo `2^W`, for every variant and every choice of the open
functions, and the exact product is that of the reduced operands. -/
def Obligations.OperandsAreMasked : Prop :=
  ∀ (p : OpenCells) (v : Variant) (W a b : Nat), 1 ≤ W →
    mul p v W a b = mul p v W (a % 2 ^ W) (b % 2 ^ W) ∧
    mul p .exact W a b = (a % 2 ^ W) * (b % 2 ^ W)

/-- R91, the spec's own inference: at `W = 1` no cell exists and every variant gives `a ∧ b`. -/
def Obligations.WidthOneMultipliesForEveryCell : Prop :=
  ∀ (F : Cell) (a b : Nat), a < 2 → b < 2 → mulWith F 1 a b = a * b

/-- R92, the spec's own inference: the closed form at `W = 2`, and what it is for the cells it names. -/
def Obligations.WidthTwoClosedForm : Prop :=
  (∀ (F : Cell) (a b : Nat),
    let sc := F (a.testBit 0) (b.testBit 1) false (a.testBit 1 && b.testBit 0)
    let p := fullAdder (a.testBit 1 && b.testBit 1) sc.2 false
    mulWith F 2 a b = bitValue (a.testBit 0 && b.testBit 0) + 2 * bitValue sc.1 +
      4 * bitValue p.1 + 8 * bitValue p.2 ∧
    p = ((a.testBit 1 && b.testBit 1) ^^ sc.2, (a.testBit 1 && b.testBit 1) && sc.2)) ∧
  (∀ x y z : Bit, ppuApprox1 x y false z = (z, true)) ∧
  (∀ (p : OpenCells) (x y z : Bit), ppuApprox4 p x y false z = (z ^^ x, !(p.t6of4 x false z))) ∧
  (∀ (p : OpenCells) (x y z : Bit), (ppuApprox3 p x y false z).2 = !(ppuApprox3 p x y false z).1)

/-- R93 item 1, the spec's own inference: with `PPU.APPROX1` the product depends on the operands only through the seeds. -/
def Obligations.Approx1ProductSeesOnlyTheSeeds : Prop :=
  ∀ W a b a' b' : Nat, 1 ≤ W →
    (∀ j, j < W → (a.testBit j && b.testBit 0) = (a'.testBit j && b'.testBit 0)) →
    (∀ i, 1 ≤ i → i < W → (a.testBit (W - 1) && b.testBit i) = (a'.testBit (W - 1) && b'.testBit i)) →
    mulWith ppuApprox1 W a b = mulWith ppuApprox1 W a' b'

/-- R93 items 2 and 3, the spec's own inference: rows 1 and 2 of the approx1 grid, and the result bits they fix. -/
def Obligations.Approx1RowsOneAndTwo : Prop :=
  ∀ W aValue bValue : Nat, 2 ≤ W →
    let a := encodeBits aValue W
    let b := encodeBits bValue W
    (∀ j, 1 ≤ j → j ≤ W - 1 →
      sumNet ppuApprox1 W a b 1 j = (bitAt a j && bitAt b 0) ∧ carryNet ppuApprox1 W a b 1 j = true) ∧
    resultBit ppuApprox1 W a b 0 = (bitAt a 0 && bitAt b 0) ∧
    resultBit ppuApprox1 W a b 1 = (bitAt a 1 && bitAt b 0) ∧
    (3 ≤ W →
      (∀ j, 2 ≤ j → j ≤ W →
        sumNet ppuApprox1 W a b 2 j = !(sumNet ppuApprox1 W a b 1 j) ∧
        carryNet ppuApprox1 W a b 2 j = !(sumNet ppuApprox1 W a b 1 j)) ∧
      resultBit ppuApprox1 W a b 2 = !(bitAt a 2 && bitAt b 0))

/-- R93 item 4, the spec's own computation: the products of zero operands and of the largest operands, `W = 1..8`. -/
def Obligations.Approx1ExtremeProducts : Prop :=
  (List.range 8).map (fun k => mulWith ppuApprox1 (k + 1) 0 0) =
    [0, 4, 36, 100, 676, 1828, 11044, 29988] ∧
  (List.range 8).map (fun k => mulWith ppuApprox1 (k + 1) (2 ^ (k + 1) - 1) (2 ^ (k + 1) - 1)) =
    [1, 11, 19, 211, 403, 3475, 6803, 56467]

/-- R94, the spec's own inference: what holds whatever the open functions are. The last clause of item 2 is that at `W = 2` every cell is in
row 1, the last of item 4 that later bits of `b` reach the product only through the diagonal seeds. -/
def Obligations.FixedFactsOfEveryVariant : Prop :=
  ∀ (p : OpenCells) (v : Variant) (W aValue bValue : Nat), 1 ≤ W →
    let a := encodeBits aValue W
    let b := encodeBits bValue W
    resultBit (cellOf p v) W a b 0 = (bitAt a 0 && bitAt b 0) ∧
    (2 ≤ W → ∀ j, 1 ≤ j → j ≤ W - 1 →
      carryNet (cellOf p v) W a b 0 (j - 1) = false ∧
      sumNet (cellOf p v) W a b 0 j = (bitAt a j && bitAt b 0)) ∧
    (∀ i j, site 2 i j = .cell → i = 1) ∧
    (∀ i j, site W i j = .cell →
      carryNet (cellOf p .approx3) W a b i j = !(sumNet (cellOf p .approx3) W a b i j)) ∧
    (2 ≤ W →
      (∀ j, 1 ≤ j → j ≤ W - 1 →
        sumNet (cellOf p .approx4) W a b 1 j = ((bitAt a j && bitAt b 0) ^^ bitAt a (j - 1))) ∧
      resultBit (cellOf p .approx4) W a b 1 = ((bitAt a 1 && bitAt b 0) ^^ bitAt a 0) ∧
      ∀ bValue' : Nat, bValue'.testBit 0 = bValue.testBit 0 →
        (∀ i, 1 ≤ i → i < W →
          (aValue.testBit (W - 1) && bValue'.testBit i) = (aValue.testBit (W - 1) && bValue.testBit i)) →
        mul p .approx4 W aValue bValue' = mul p .approx4 W aValue bValue)

/-! ## The operations on the machine -/

/-- R82: `MUL.EXACT` completes on every instance, drives `product_o` with `a · b` for operands in range, and changes
nothing else. That it holds at every width is the spec's inference (R90); for naturals out of range it gives the
product of the masked operands, by the spec's decision D5 (R98; log 9). -/
def Obligations.MulExactDrivesTheProduct : Prop :=
  ∀ (s : State) (a b : Nat), 1 ≤ s.width →
    exec (.mulExact a b) s = .next { s with productO := (a % 2 ^ s.width) * (b % 2 ^ s.width) } ∧
    (a < 2 ^ s.width → b < 2 ^ s.width → exec (.mulExact a b) s = .next { s with productO := a * b })

/-- R83: `MUL.APPROX1` completes on every instance with `MUL(approx1, a, b)`, which never is 0 for zero operands
when `W ≥ 2`, equals the exact product at `W = 1`, and is not commutative; with the rule's numbers, which the spec
derives from R71 and R59. -/
def Obligations.MulApprox1DrivesItsProduct : Prop :=
  (∀ (s : State) (a b : Nat), 1 ≤ s.width →
    exec (.mulApprox1 a b) s = .next { s with productO := mulWith ppuApprox1 s.width a b }) ∧
  (∀ W, 2 ≤ W → mulWith ppuApprox1 W 0 0 ≠ 0) ∧
  (∀ a b, mulWith ppuApprox1 1 a b = mulWith ppuExact 1 a b) ∧
  mulWith ppuApprox1 2 0 0 = 4 ∧ mulWith ppuApprox1 3 0 0 = 36 ∧ mulWith ppuApprox1 4 0 0 = 100 ∧
  mulWith ppuApprox1 8 0 0 = 29988 ∧ mulWith ppuApprox1 2 2 1 = 6 ∧ mulWith ppuApprox1 2 1 2 = 4 ∧
  mulWith ppuApprox1 8 3 5 = 29991

/-- R84: `MUL.APPROX2` completes on every instance with the grid of the machine's `CELL2`; for any `CELL2` it equals
the exact product at `W = 1`, and zero operands at `W = 2` give `2s + 4c` (the spec's inferences R91, R92). -/
def Obligations.MulApprox2DrivesItsProduct : Prop :=
  (∀ (s : State) (a b : Nat), 1 ≤ s.width →
    exec (.mulApprox2 a b) s =
      .next { s with productO := mulWith (fun x y c z => Config.cell2 x y c z) s.width a b }) ∧
  (∀ (p : OpenCells) (a b : Nat), mul p .approx2 1 a b = mulWith ppuExact 1 a b) ∧
  (∀ p : OpenCells, mul p .approx2 2 0 0 =
    2 * bitValue (p.cell2 false false false false).1 + 4 * bitValue (p.cell2 false false false false).2)

/-- R85: `MUL.APPROX3` completes on every instance with the grid of the cell over the machine's `T7_3`; for any
`T7_3` it equals the exact product at `W = 1`, and `3 · 3` at `W = 2` gives 9 or 7 (the spec's inferences R91,
R92). -/
def Obligations.MulApprox3DrivesItsProduct : Prop :=
  (∀ (s : State) (a b : Nat), 1 ≤ s.width →
    exec (.mulApprox3 a b) s = .next { s with
      productO := mulWith (fun x y c z => (!(Config.t7of3 x y c z), Config.t7of3 x y c z)) s.width a b }) ∧
  (∀ (p : OpenCells) (a b : Nat), mul p .approx3 1 a b = mulWith ppuExact 1 a b) ∧
  (∀ p : OpenCells, mul p .approx3 2 3 3 = if p.t7of3 true true false true then 9 else 7)

/-- R86: `MUL.APPROX4` completes on every instance with the grid of the cell over the machine's `T6_4`; for any
`T6_4` it equals the exact product at `W = 1`, bit 1 of a product by zero is `a[0]` for `W ≥ 2`, and `1 · 0` at
`W = 2` gives `2 + 4·¬T6_4(1, 0, 0)` (the spec's inferences R91, R92, R94). -/
def Obligations.MulApprox4DrivesItsProduct : Prop :=
  (∀ (s : State) (a b : Nat), 1 ≤ s.width →
    exec (.mulApprox4 a b) s = .next { s with
      productO := mulWith (fun x _ c z => ((z ^^ c) ^^ x, !(Config.t6of4 x c z))) s.width a b }) ∧
  (∀ (p : OpenCells) (a b : Nat), mul p .approx4 1 a b = mulWith ppuExact 1 a b) ∧
  (∀ (p : OpenCells) (W a : Nat), 2 ≤ W → (mul p .approx4 W a 0).testBit 1 = a.testBit 0) ∧
  (∀ p : OpenCells, mul p .approx4 2 1 0 = 2 + 4 * bitValue (!(p.t6of4 true false false)))

/-- The frame of all five operations: the input ports, the width and the model's counter are as before (R13, R16,
R29); `product_o` is all there is besides. -/
def Obligations.OperationsChangeOnlyTheOutput : Prop :=
  ∀ (i : Instr) (s t : State), exec i s = .next t →
    t.width = s.width ∧ t.variantI = s.variantI ∧ t.aI = s.aI ∧ t.bI = s.bI ∧ t.freeIndex = s.freeIndex

/-- An instance of width 0 is refused, whatever is asked of it (R7, R97, the spec's decision D6; that
the step and each meaning check it is the model's choice, log 8). -/
def Obligations.ZeroWidthIsRefused : Prop :=
  ∀ (i : Instr) (s : State), s.width = 0 →
    exec i s = .refused .zeroWidth ∧ step s = .refused .zeroWidth

/-! ## The step -/

/-- A step runs the operation that the request on the ports decodes to. -/
def Obligations.StepRunsTheRequestOnThePorts : Prop :=
  ∀ (s : State) (code : BitVec 3) (a b : Nat) (i : Instr),
    s.Presents code a b → decodeReq s.width (packReq s.width code a b) = .ok i → step s = exec i s

/-- A word of the opcode table, presented on the ports, is what the next step runs (log 11: the model's own
convention for presenting a word, and for reading it out of a container of `nbits` bits). -/
def Obligations.StepRunsThePresentedTableWord : Prop :=
  ∀ (s : State) (nbits w : Nat) (i : Instr), decodeTableWord nbits w = some i →
    step (s.withFetchWord nbits w) = exec i (s.withFetchWord nbits w)

/-- After a step on steady inputs `product_o` is `MUL(variant_i, a_i, b_i)` (R18, R110), and nothing else has
changed. -/
def Obligations.SettledOutputIsTheProductOfThePorts : Prop :=
  ∀ (s : State) (v : Variant) (a b : Nat), 1 ≤ s.width → s.Presents v.code a b →
    step s = .next { s with productO := mul Config.openCells v s.width a b }

/-- R97 and R99: there is no fault; the only refusals are `ZeroWidth`, exactly on an instance of width 0, and
`ReservedVariant`, exactly on a request with code 5, 6 or 7, recording the code (the spec's decisions D4, D6; log 7,
log 8). -/
def Obligations.OnlyReservedCodesAndZeroWidthAreRefused : Prop :=
  ∀ s : State,
    (∀ f, step s ≠ .fault f) ∧
    (step s = .refused .zeroWidth ↔ s.width = 0) ∧
    (∀ code, step s = .refused (.reservedVariant code) ↔
      s.width ≠ 0 ∧ 5 ≤ code.toNat ∧ ∃ a b, s.Presents code a b) ∧
    (∀ m, step s ≠ .refused (.notModelled m))

/-- While an input is not steadily driven the block goes on, its inputs stay as they are, and `product_o` is an
unspecified value of its `2W` wires (R107, R112; as a free value, log 4). -/
def Obligations.UnsteadyInputsGiveAnUnspecifiedOutput : Prop :=
  ∀ s : State, 1 ≤ s.width → s.Unsteady →
    step s = .next { s with
      productO := (Config.unspecifiedProduct s.width s.freeIndex).toNat
      freeIndex := s.freeIndex + 1 }

/-- Every port keeps to its wires: an invariant of every step, from every state that meets it. -/
def Obligations.StepKeepsPortsInRange : Prop :=
  ∀ s t : State, s.wf = true → step s = .next t → t.wf = true

/-- The state after reset meets the invariant (the model's choice of instance, log 1; whatever the free value is). -/
def Obligations.ResetPortsAreInRange : Prop :=
  State.reset.wf = true

/-- After reset no input is driven (R107; log 3), on the conventional instance (log 1), and the output is the
unspecified value numbered 0 (R24; log 4). -/
def Obligations.ResetDrivesNoInput : Prop :=
  State.reset.variantI = none ∧ State.reset.aI = none ∧ State.reset.bI = none ∧
    State.reset.width = 8 ∧ State.reset.productO = (Config.unspecifiedProduct 8 0).toNat

/-- No step changes an input port or the width (R13, R29). -/
def Obligations.StepLeavesInputsAndWidth : Prop :=
  ∀ s t : State, step s = .next t →
    t.width = s.width ∧ t.variantI = s.variantI ∧ t.aI = s.aI ∧ t.bI = s.bI ∧
      (¬ s.Unsteady → t.freeIndex = s.freeIndex)

/-- R95, determinism at the ports: evaluating the same request again changes nothing. -/
def Obligations.RepeatedRequestGivesTheSameState : Prop :=
  ∀ (s t : State) (code : BitVec 3) (a b : Nat),
    s.Presents code a b → step s = .next t → step t = .next t

/-! ## The host -/

/-- R31: a response depends on its own request only: not on earlier requests, refused ones included (R104), not on
the output left behind, and not on which instance of the same width serves it. -/
def Obligations.ResponsesDependOnTheirOwnRequest : Prop :=
  ∀ (s s' : State) (rs : List Request), s.width = s'.width →
    serveAll s rs = rs.map fun r => (serve s' r).2

/-- The host interaction of R101: any operands, a legal code, and the block returns `MUL(variant_i, a_i, b_i)`. -/
def Obligations.PresentedRequestReturnsItsProduct : Prop :=
  ∀ (s : State) (v : Variant) (a b : Nat), 1 ≤ s.width →
    (serve s { variant := v.code, a := a, b := b }).2 = .next (mul Config.openCells v s.width a b)

/-- Whenever the host changes or lets go the inputs, the output is unspecified from that moment until a step has
settled it (R107, R110, R112; as a free value, log 4), the ports hold what the host drives, and the width is as
before. -/
def Obligations.HostActionsLeaveTheOutputUnspecified : Prop :=
  ∀ (s : State) (r : Request),
    s.present r = { s with
      variantI := some r.variant
      aI := some (r.a % 2 ^ s.width)
      bI := some (r.b % 2 ^ s.width)
      productO := (Config.unspecifiedProduct s.width s.freeIndex).toNat
      freeIndex := s.freeIndex + 1 } ∧
    s.undrive = { s with
      variantI := none
      aI := none
      bI := none
      productO := (Config.unspecifiedProduct s.width s.freeIndex).toNat
      freeIndex := s.freeIndex + 1 }

/-- The exporter's table of R101: `2^W` rows of `2^W + 1` entries, rows indexed by `a`, columns by `b`, after a
header of the column operands. The header here has no entry for the corner above the row operands, which R101 leaves
open (log 18). At `W = 0`, where no request is answered, it speaks of the model's own row `[0, 0]` (log 20). -/
def Obligations.LookupTableHoldsEveryProduct : Prop :=
  ∀ (p : OpenCells) (v : Variant) (W : Nat),
    lutHeader W = List.range (2 ^ W) ∧ (lutRows p v W).length = 2 ^ W ∧
    ∀ a b, a < 2 ^ W → b < 2 ^ W →
      ((lutRows p v W).getD a []).length = 2 ^ W + 1 ∧
      ((lutRows p v W).getD a []).getD 0 0 = a ∧
      ((lutRows p v W).getD a []).getD (b + 1) 0 = mul p v W a b
end

