-- ==== Sys2Proof/Laws/Codec.lean ====
section
/-! SUPPORT. What the codec's functions give, bit by bit. -/

namespace Sys2Proof.Machine

@[simp] theorem encodeBits_length (value W : Nat) : (encodeBits value W).length = W := by
  simp [encodeBits]

/-- Inside the width a bit of the encoding is the operand's bit; past it, 0. -/
theorem bitAt_encodeBits (value W k : Nat) :
    bitAt (encodeBits value W) k = (decide (k < W) && value.testBit k) := by
  by_cases h : k < W
  · have hb : value.testBit k = decide ((value >>> k) &&& 1 = 1) := by
      rw [Nat.testBit_eq_decide_div_mod_eq, Nat.and_one_is_mod, Nat.shiftRight_eq_div_pow]
    rw [hb]
    simp [bitAt, encodeBits, h]
  · simp [bitAt, encodeBits, h]

@[simp] theorem decodeBits_nil : decodeBits [] = 0 := rfl

@[simp] theorem decodeBits_cons (x : Bit) (xs : BitSeq) :
    decodeBits (x :: xs) = bitValue x + 2 * decodeBits xs := rfl

theorem bitValue_le_one (x : Bit) : bitValue x ≤ 1 := by
  cases x <;> simp [bitValue]

/-- A sequence of length `L` decodes below `2^L` (40_codec.md R47). -/
theorem decodeBits_lt (bits : BitSeq) : decodeBits bits < 2 ^ bits.length := by
  induction bits with
  | nil => simp
  | cons x xs ih =>
    have := bitValue_le_one x
    simp only [decodeBits_cons, List.length_cons, pow_succ]
    omega

end Sys2Proof.Machine
end

