-- ==== Sys2Proof/Laws/Grid.lean ====
section
/-! SUPPORT. The map of the grid by index ranges, and the value of a net by what drives it. -/

namespace Sys2Proof.Machine

theorem site_eq_rowSeed_iff (W i j : Nat) : site W i j = .rowSeed ↔ i = 0 ∧ j < W := by
  unfold site
  split_ifs <;> simp <;> omega

theorem site_eq_diagonalSeed_iff (W i j : Nat) :
    site W i j = .diagonalSeed ↔ 1 ≤ i ∧ i < W ∧ j + 1 = W + i := by
  unfold site
  split_ifs <;> simp <;> omega

theorem site_eq_cell_iff (W i j : Nat) :
    site W i j = .cell ↔ 1 ≤ i ∧ i < W ∧ i ≤ j ∧ j + 2 ≤ i + W := by
  unfold site
  split_ifs <;> simp <;> omega

theorem site_eq_adder_iff (W i j : Nat) :
    site W i j = .adder ↔ 1 ≤ i ∧ i = W ∧ W ≤ j ∧ j + 2 ≤ 2 * W := by
  unfold site
  split_ifs <;> simp <;> omega

variable (F : Cell) (W : Nat) (a b : BitSeq)

theorem netAt_of_rowSeed {i j : Nat} (h : site W i j = .rowSeed) :
    netAt F W a b i j = (bitAt a j && bitAt b 0, false) := by
  obtain ⟨rfl, hj⟩ := (site_eq_rowSeed_iff W i j).1 h
  rw [netAt, if_neg (by omega), cellRow, h]

theorem netAt_of_diagonalSeed {i j : Nat} (h : site W i j = .diagonalSeed) :
    netAt F W a b i j = (bitAt a (W - 1) && bitAt b i, false) := by
  obtain ⟨h1, h2, h3⟩ := (site_eq_diagonalSeed_iff W i j).1 h
  obtain ⟨k, rfl⟩ : ∃ k, i = k + 1 := ⟨i - 1, by omega⟩
  rw [netAt, if_neg (by omega), cellRow, h]

theorem netAt_of_cell {i j : Nat} (h : site W i j = .cell) :
    netAt F W a b i j = F (bitAt a (j - i)) (bitAt b i) (carryNet F W a b (i - 1) (j - 1))
      (sumNet F W a b (i - 1) j) := by
  obtain ⟨h1, h2, h3, h4⟩ := (site_eq_cell_iff W i j).1 h
  obtain ⟨k, rfl⟩ : ∃ k, i = k + 1 := ⟨i - 1, by omega⟩
  rw [netAt, if_neg (by omega), cellRow, h]
  simp only [carryNet, sumNet, netAt, Nat.add_sub_cancel]
  rw [if_neg (by omega), if_neg (by omega)]

theorem netAt_of_adder {j : Nat} (h : site W W j = .adder) :
    netAt F W a b W j = fullAdder (sumNet F W a b (W - 1) j) (carryNet F W a b (W - 1) (j - 1))
      (carryNet F W a b W (j - 1)) := by
  obtain ⟨h1, -, h3, h4⟩ := (site_eq_adder_iff W W j).1 h
  obtain ⟨k, rfl⟩ : ∃ k, j = k + 1 := ⟨j - 1, by omega⟩
  rw [netAt, if_pos rfl, finalRow, h]
  simp only [carryNet, sumNet, netAt, Nat.add_sub_cancel, if_true]
  rw [if_neg (by omega), if_neg (by omega)]

theorem netAt_of_unwritten {i j : Nat} (h : site W i j = .unwritten) :
    netAt F W a b i j = (false, false) := by
  unfold netAt
  split_ifs with hi
  · subst hi
    cases j with
    | zero => rfl
    | succ j => rw [finalRow, h]
  · cases i with
    | zero => rw [cellRow, h]
    | succ i => rw [cellRow, h]

end Sys2Proof.Machine
end

