-- ==== Sys2Proof/Laws/State.lean ====
section
/-! SUPPORT. One lemma per field per update of State, true by `rfl`. -/

namespace Sys2Proof.Machine

namespace State

variable (s : State) (n : Nat) (r : Request)

@[simp] theorem withProduct_width : (s.withProduct n).width = s.width := rfl
@[simp] theorem withProduct_variantI : (s.withProduct n).variantI = s.variantI := rfl
@[simp] theorem withProduct_aI : (s.withProduct n).aI = s.aI := rfl
@[simp] theorem withProduct_bI : (s.withProduct n).bI = s.bI := rfl
@[simp] theorem withProduct_productO : (s.withProduct n).productO = n := rfl
@[simp] theorem withProduct_freeIndex : (s.withProduct n).freeIndex = s.freeIndex := rfl

@[simp] theorem unspecified_width : s.unspecified.width = s.width := rfl
@[simp] theorem unspecified_variantI : s.unspecified.variantI = s.variantI := rfl
@[simp] theorem unspecified_aI : s.unspecified.aI = s.aI := rfl
@[simp] theorem unspecified_bI : s.unspecified.bI = s.bI := rfl
@[simp] theorem unspecified_productO :
    s.unspecified.productO = (Config.unspecifiedProduct s.width s.freeIndex).toNat := rfl
@[simp] theorem unspecified_freeIndex : s.unspecified.freeIndex = s.freeIndex + 1 := rfl

@[simp] theorem present_width : (s.present r).width = s.width := rfl
@[simp] theorem present_variantI : (s.present r).variantI = some r.variant := rfl
@[simp] theorem present_aI : (s.present r).aI = some (r.a % 2 ^ s.width) := rfl
@[simp] theorem present_bI : (s.present r).bI = some (r.b % 2 ^ s.width) := rfl
@[simp] theorem present_productO :
    (s.present r).productO = (Config.unspecifiedProduct s.width s.freeIndex).toNat := rfl
@[simp] theorem present_freeIndex : (s.present r).freeIndex = s.freeIndex + 1 := rfl

@[simp] theorem undrive_width : s.undrive.width = s.width := rfl
@[simp] theorem undrive_variantI : s.undrive.variantI = none := rfl
@[simp] theorem undrive_aI : s.undrive.aI = none := rfl
@[simp] theorem undrive_bI : s.undrive.bI = none := rfl
@[simp] theorem undrive_productO :
    s.undrive.productO = (Config.unspecifiedProduct s.width s.freeIndex).toNat := rfl
@[simp] theorem undrive_freeIndex : s.undrive.freeIndex = s.freeIndex + 1 := rfl

end State

end Sys2Proof.Machine
end

