-- ==== Sys2Proof/Laws/Machine.lean ====
section
/-! SUPPORT. What each shared operation, `exec` and `step` can do, said once. -/

namespace Sys2Proof.Machine

variable (s t : State)

/-- The one way a meaning ends in a next state. -/
theorem answer_eq_next_iff (product : Nat) :
    s.answer product = .next t ↔ s.width ≠ 0 ∧ t = s.withProduct product := by
  unfold State.answer
  split_ifs with h
  · simp [h]
  · simp [h, eq_comm]

theorem answer_of_pos (product : Nat) (h : 1 ≤ s.width) :
    s.answer product = .next (s.withProduct product) :=
  (answer_eq_next_iff s _ product).2 ⟨by omega, rfl⟩

theorem answer_of_zero (product : Nat) (h : s.width = 0) : s.answer product = .refused .zeroWidth :=
  if_pos h

/-- Every meaning is rule R71 with its own selector value. -/
theorem exec_eq_answer (i : Instr) :
    exec i s = s.answer (mul Config.openCells i.variant s.width i.operandA i.operandB) := by
  cases i <;> rfl

/-- The request on the ports, when there is one. -/
theorem requestWord_of_presents {code : BitVec 3} {a b : Nat} (h : s.Presents code a b) :
    s.requestWord = some (packReq s.width code a b) := by
  obtain ⟨h1, h2, h3⟩ := h
  simp [State.requestWord, h1, h2, h3]

theorem requestWord_eq_none_iff : s.requestWord = none ↔ s.Unsteady := by
  unfold State.requestWord State.Unsteady
  cases s.variantI <;> cases s.aI <;> cases s.bI <;> simp

/-- Everything a step can do. -/
theorem step_cases :
    (s.width = 0 ∧ step s = .refused .zeroWidth) ∨
    (s.width ≠ 0 ∧ s.Unsteady ∧ step s = .next s.unspecified) ∨
    (∃ req i, s.width ≠ 0 ∧ s.requestWord = some req ∧ decodeReq s.width req = .ok i ∧
      step s = exec i s) ∨
    (∃ req r, s.width ≠ 0 ∧ s.requestWord = some req ∧ decodeReq s.width req = .error r ∧
      step s = .refused (Refusal.ofReject r)) := by
  by_cases h0 : s.width = 0
  · exact .inl ⟨h0, if_pos h0⟩
  · cases hr : s.requestWord with
    | none =>
      refine .inr (.inl ⟨h0, (requestWord_eq_none_iff s).1 hr, ?_⟩)
      rw [step, if_neg h0, hr]
    | some req =>
      cases hd : decodeReq s.width req with
      | ok i => exact .inr (.inr (.inl ⟨req, i, h0, rfl, hd, by simp only [step, if_neg h0, hr, hd]⟩))
      | error r => exact .inr (.inr (.inr ⟨req, r, h0, rfl, hd, by simp only [step, if_neg h0, hr, hd]⟩))

end Sys2Proof.Machine
end

