-- ==== Sys2Proof/Laws/PerInstr.lean ====
section
/-! SUPPORT. Facts proved once per operation: an operation is its variant and its two operands. -/

namespace Sys2Proof.Laws.Fields

/-- An operation is rebuilt from its variant and operands (30_encoding.md R33). -/
def Statement (i : Instr) : Prop :=
  Instr.ofVariant i.variant i.operandA i.operandB = i

theorem mulExact (a b : Nat) : Statement (.mulExact a b) := rfl
theorem mulApprox1 (a b : Nat) : Statement (.mulApprox1 a b) := rfl
theorem mulApprox2 (a b : Nat) : Statement (.mulApprox2 a b) := rfl
theorem mulApprox3 (a b : Nat) : Statement (.mulApprox3 a b) := rfl
theorem mulApprox4 (a b : Nat) : Statement (.mulApprox4 a b) := rfl

end Sys2Proof.Laws.Fields
end

