-- ==== Sys2Proof/Tests/Slice0.lean ====
section
/-! SUPPORT. Tests on fixed values, each expected value taken from spec/ (named in the comment), and for every
statement with hypotheses a concrete witness that meets them together. -/

namespace Sys2Proof.Tests

open Sys2Proof Sys2Proof.Machine

/-- A small state: an instance of width `W` with a request on its ports. -/
def ports (W : Nat) (code : BitVec 3) (a b : Nat) : State :=
  { width := W, variantI := some code, aI := some a, bI := some b, productO := 0, freeIndex := 0 }

/-- The output after a step or a meaning, when there is a next state. -/
def sampled : Host.Outcome State Fault Refusal → Option Nat
  | .next t => some t.productO
  | _ => none

/-- The refusal a step or a meaning ends in. -/
def refusedWith : Host.Outcome State Fault Refusal → Option Refusal
  | .refused r => some r
  | _ => none

/-- A row of the grid over columns `0..2W-1`, as 95_test_vectors.md section 2.8 prints it. -/
def sumRow (F : Cell) (W a b i : Nat) : List Nat :=
  (List.range (2 * W)).map fun j => bitValue (sumNet F W (encodeBits a W) (encodeBits b W) i j)

def carryRow (F : Cell) (W a b i : Nat) : List Nat :=
  (List.range (2 * W)).map fun j => bitValue (carryNet F W (encodeBits a W) (encodeBits b W) i j)

/-- A concrete choice of the open functions, with `T7_3 = t7` and `¬T6_4 = u` everywhere. -/
def cells (t7 u : Bit) : OpenCells where
  cell2 := fun a b cIn sIn => ((a && b) ^^ sIn, cIn)
  t7of3 := fun _ _ _ _ => t7
  t6of4 := fun _ _ _ => !u

/-! ## WellFormed: each check refuses its ill-formed term -/

theorem test_wf_accepts : (Instr.mulExact 255 255).wf 8 = true := by decide
theorem test_wf_zero_width : (Instr.mulExact 0 0).wf 0 = false := by decide
theorem test_wf_operand_a : (Instr.mulApprox1 256 0).wf 8 = false := by decide
theorem test_wf_operand_b : (Instr.mulApprox4 0 4).wf 2 = false := by decide

/-! ## Decode: words written out from the layout (30_encoding.md R34, R35; 95_test_vectors.md 2.4 to 2.7) -/

theorem test_decode_mulExact : decodeTableWord 24 0b0000101010110101010 = some (.mulExact 170 85) := by decide
theorem test_decode_mulApprox1 : decodeTableWord 24 0b0010110010011001000 = some (.mulApprox1 200 100) := by decide
theorem test_decode_mulApprox2 : decodeTableWord 24 0b0100000010100000011 = some (.mulApprox2 3 5) := by decide
theorem test_decode_mulApprox3 : decodeTableWord 24 0b0111111111100000001 = some (.mulApprox3 1 255) := by decide
theorem test_decode_mulApprox4 : decodeTableWord 24 0b1000000000000000000 = some (.mulApprox4 0 0) := by decide
theorem test_decode_reserved : decodeTableWord 24 0b1110000000000000000 = none := by decide
/-- R39: a bit above the 19 is no request. -/
theorem test_decode_too_long : decodeTableWord 24 0x80000 = none := by decide
/-- The model's reading of a 16-bit container (log 11): the selector field is filled up with zeros. -/
theorem test_decode_short_container : decodeTableWord 16 0x10503 = some (.mulExact 3 5) := by decide
theorem test_decode_W4 : decodeReq 4 (0x476 : BitVec 11) = .ok (.mulApprox4 6 7) := by decide
theorem test_decode_W4_reserved :
    decodeReq 4 (0x576 : BitVec 11) = .error (.reservedVariant 5) := by decide
theorem test_encode_W4 : encodeReq 4 (.mulApprox1 6 7) = (0x176 : BitVec 11) := by decide
theorem test_encode_W8 : encodeReq 8 (.mulExact 255 0) = (0x000FF : BitVec 19) := by decide
/-- R41. -/
theorem test_assembly : (Instr.mulExact 6 7).assembly = "MUL.EXACT 6, 7" := by decide

/-! ## Codec (2.1) -/

theorem test_encode_165 : encodeBits 0xA5 8 = [true, false, true, false, false, true, false, true] := by decide
theorem test_encode_masked : encodeBits 22 4 = [false, true, true, false] := by decide
theorem test_decode_225 :
    decodeBits [true, false, false, false, false, true, true, true] = 225 := by decide
theorem test_decode_empty : decodeBits [] = 0 := by decide

/-! ## Full adder and cells (R52, 2.2, 2.3, R70) -/

theorem test_fullAdder_table :
    [fullAdder false false false, fullAdder false false true, fullAdder false true false,
      fullAdder false true true, fullAdder true false false, fullAdder true false true,
      fullAdder true true false, fullAdder true true true] =
    [(false, false), (true, false), (true, false), (false, true),
     (true, false), (false, true), (false, true), (true, true)] := by decide
theorem test_ppuExact_no_partial_product : ppuExact true false true true = (false, true) := by decide
theorem test_ppuApprox1_carry_from_nothing : ppuApprox1 false false false false = (false, true) := by decide
theorem test_ppuApprox3_complement : ppuApprox3 (cells true true) true true false false = (false, true) := by decide
theorem test_ppuApprox4_bare_a : ppuApprox4 (cells true true) true false false false = (true, true) := by decide
theorem test_cellError_approx1 : cellError ppuApprox1 true true true true = -3 := by decide

/-- The source's claims of R62 can be met together. -/
theorem test_sourceClaims_satisfiable : SourceClaims (cells true true) := by
  have differ : ∀ {F G : Cell} (a b c s : Bit), F a b c s ≠ G a b c s → F ≠ G :=
    fun a b c s h e => h (by rw [e])
  refine ⟨differ false false false false (by decide), ?_, ?_, ?_⟩
  case refine_2 =>
    intro v hv
    cases v with
    | exact => exact absurd rfl hv
    | approx2 => exact ⟨255, 255, by decide, by decide, by decide⟩
    | _ => exact ⟨0, 0, by decide, by decide, by decide⟩
  case refine_3 =>
    intro v a b ha hb
    have fits : mul (cells true true) v 8 a b < 2 ^ 16 := by
      simpa [mul, mulWith, resultBits] using
        decodeBits_lt (resultBits (cellOf (cells true true) v) 8 (encodeBits a 8) (encodeBits b 8))
    have : a * b < 2 ^ 8 * 2 ^ 8 := Nat.mul_lt_mul'' ha hb
    omega
  intro v hv
  cases v with
  | exact => exact absurd rfl hv
  | approx1 => exact differ false false false false (by decide)
  | approx2 => exact differ false false true false (by decide)
  | approx3 => exact differ false false false false (by decide)
  | approx4 => exact differ false false false false (by decide)

/-! ## Grid traces (2.8) -/

theorem test_T1_sum_row3 : sumRow ppuExact 4 6 7 3 = [0, 0, 0, 1, 0, 0, 0, 0] := by decide
theorem test_T1_carry_row3 : carryRow ppuExact 4 6 7 3 = [0, 0, 0, 0, 1, 0, 0, 0] := by decide
theorem test_T2_carry_row4 : carryRow ppuExact 4 15 15 4 = [0, 0, 0, 0, 1, 1, 1, 0] := by decide
theorem test_T3_sum_row1 : sumRow ppuApprox1 3 5 3 1 = [0, 0, 1, 1, 0, 0] := by decide
theorem test_T4_sum_row7 :
    sumRow ppuApprox1 8 3 5 7 = [0, 0, 0, 0, 0, 0, 0, 0, 0, 1, 1, 0, 0, 1, 0, 0] := by decide
theorem test_T4_carry_row8 :
    carryRow ppuApprox1 8 3 5 8 = [0, 0, 0, 0, 0, 0, 0, 0, 0, 1, 1, 1, 0, 0, 0, 0] := by decide
/-- The map at `W = 4` (R81), row 2. -/
theorem test_map_row2 : (List.range 8).map (site 4 2) =
    [.unwritten, .unwritten, .cell, .cell, .cell, .diagonalSeed, .unwritten, .unwritten] := by decide
theorem test_map_row4 : (List.range 8).map (site 4 4) =
    [.unwritten, .unwritten, .unwritten, .unwritten, .adder, .adder, .adder, .unwritten] := by decide

/-! ## Products (2.4 to 2.6, R93) -/

theorem test_exact_15_15 : mulWith ppuExact 4 15 15 = 225 := by decide
theorem test_exact_170_85 : mulWith ppuExact 8 170 85 = 14450 := by decide
theorem test_approx1_128_1 : mulWith ppuApprox1 8 128 1 = 44452 := by decide
theorem test_approx1_W4_14_15 : mulWith ppuApprox1 4 14 15 = 210 := by decide
/-- The table at `W = 2`, variant approx1 (2.5, program P2). -/
theorem test_lut_W2_approx1 : lutRows (cells true true) .approx1 2 =
    [[0, 4, 4, 4, 4], [1, 4, 5, 4, 5], [2, 4, 6, 8, 10], [3, 4, 7, 8, 11]] := by decide
/-- The table at `W = 2`, variant approx4, with all four `u` equal to 1 and equal to 0 (2.6). -/
theorem test_lut_W2_approx4_ones : lutRows (cells true true) .approx4 2 =
    [[0, 4, 4, 4, 4], [1, 6, 7, 6, 7], [2, 4, 6, 8, 10], [3, 6, 5, 10, 9]] := by decide
theorem test_lut_W2_approx4_zeros : lutRows (cells true false) .approx4 2 =
    [[0, 0, 0, 0, 0], [1, 2, 3, 2, 3], [2, 0, 2, 4, 6], [3, 2, 1, 6, 5]] := by decide
/-- 2.6: `MUL(approx3, 3, 3)` at `W = 2` is 9 or 7, and `MUL(approx3, 0, 0)` is 4 or 2. -/
theorem test_approx3_W2 : (mul (cells true true) .approx3 2 3 3, mul (cells false true) .approx3 2 3 3,
    mul (cells true true) .approx3 2 0 0, mul (cells false true) .approx3 2 0 0) = (9, 7, 4, 2) := by decide
/-- R93 item 5: the pairs with a wrong product, `W = 2` and `W = 3`. -/
theorem test_approx1_mismatches : [2, 3].map (fun W =>
    (((List.range (2 ^ W)).flatMap fun a => (List.range (2 ^ W)).map fun b => (a, b)).filter
      fun ab => decide (mulWith ppuApprox1 W ab.1 ab.2 ≠ ab.1 * ab.2)).length) = [16, 63] := by decide
/-- The source's own example, by its entry point (R41). -/
theorem test_multiply_entry : multiply (cells true true) 6 7 .exact 4 = .next 42 := rfl
theorem test_multiply_zero_width : multiply (cells true true) 0 0 .exact 0 = .refused .zeroWidth := rfl

/-! ## The machine: one step or one meaning (2.7, programs P3 and P5) -/

theorem test_step_exact : sampled (step (ports 4 0 6 7)) = some 42 := by decide
theorem test_step_approx1 : sampled (step (ports 8 1 3 5)) = some 29991 := by decide
theorem test_exec_exact_masks : sampled (exec (.mulExact 22 7) (ports 4 0 6 7)) = some 42 := by decide
theorem test_exec_approx1_zero : sampled (exec (.mulApprox1 0 0) (ports 8 1 0 0)) = some 29988 := by decide
/-- R91: at `W = 1` the open functions are not used. -/
theorem test_step_approx2_W1 : sampled (step (ports 1 2 1 1)) = some 1 := by decide
theorem test_step_approx3_W1 : sampled (step (ports 1 3 1 0)) = some 0 := by decide
theorem test_step_approx4_W1 : sampled (step (ports 1 4 1 1)) = some 1 := by decide
theorem test_step_reserved : refusedWith (step (ports 2 5 0 0)) = some (.reservedVariant 5) := by decide
theorem test_step_zero_width : refusedWith (step (ports 0 0 0 0)) = some .zeroWidth := by decide
/-- The first operation after reset, presented from outside. -/
theorem test_first_after_reset :
    sampled (step (State.reset.withFetchWord 24 0x1FFFF)) = some 56467 := by decide
theorem test_serve_after_refusal :
    (serveAll (ports 2 0 0 0) [⟨0, 1, 1⟩, ⟨5, 0, 0⟩, ⟨0, 1, 1⟩]) =
      [.next 1, .refused (.reservedVariant 5), .next 1] := rfl
/-- U3: once the inputs are let go, the output is a free value before any step. -/
theorem test_undrive_frees_the_output : (ports 4 0 6 7).undrive.productO =
    (Config.unspecifiedProduct 4 0).toNat := rfl
/-- R112, U3: a new request presented over a settled one, sampled before the nets settle. -/
theorem test_present_frees_the_output : (State.present (ports 4 0 6 7) ⟨1, 6, 7⟩).productO =
    (Config.unspecifiedProduct 4 0).toNat := rfl
theorem test_undriven_goes_on :
    (step (ports 4 0 6 7).undrive) = .next (ports 4 0 6 7).undrive.unspecified := rfl

/-! ## Witnesses: a concrete state and operands that meet a statement's hypotheses together -/

theorem witness_DecodeOfEncodeIsTheInstruction : (Instr.mulApprox3 1 0).wf 1 = true := by decide

theorem witness_EncodeOfDecodeIsTheWord :
    decodeReq 2 (0b1001101 : BitVec 7) = .ok (.mulApprox4 1 3) := by decide

/-- One word per clause at `W = 1`, codes 0 to 5 and 7. -/
theorem witness_DecodingFollowsTheSelectorField : 1 ≤ 1 ∧
    (0b00011 : BitVec 5).toNat / 2 ^ (2 * 1) = 0 ∧ (0b00111 : BitVec 5).toNat / 2 ^ (2 * 1) = 1 ∧
    (0b01001 : BitVec 5).toNat / 2 ^ (2 * 1) = 2 ∧ (0b01110 : BitVec 5).toNat / 2 ^ (2 * 1) = 3 ∧
    (0b10000 : BitVec 5).toNat / 2 ^ (2 * 1) = 4 ∧ 5 ≤ (0b10100 : BitVec 5).toNat / 2 ^ (2 * 1) ∧
    5 ≤ (0b11111 : BitVec 5).toNat / 2 ^ (2 * 1) := by decide

theorem witness_EncodedBitIsTheShiftedLowBit : 0 < 1 := by decide

theorem witness_DecodeOfEncodeIsTheOperand : 15 < 2 ^ 4 := by decide

/-- R64's rows 0, 4, 8 and 15. -/
theorem witness_Approx3CarryIsComplementOfSum :
    ppuExact false false false false = (false, false) ∧ ppuExact false true false false = (false, false) ∧
    ppuExact true false false false = (false, false) ∧ ppuExact true true true true = (true, true) := by decide

/-- The interior cell of the grid at `W = 2`. -/
theorem witness_SelectorPicksTheCell : 1 ≤ 2 ∧ 1 ≤ 1 ∧ 1 < 2 ∧ 1 ≤ 1 ∧ 1 ≤ 1 + 2 - 2 := by decide

/-- For every statement over all cells and operands whose one hypothesis is `1 ≤ W` (GridNetsFollowTheRules,
EveryWrittenNetIsReadExactlyOnce, GridSizeIsQuadratic, ProductIsTheWeightedResultBits, OperandsAreMasked): the
boundary width. -/
theorem witness_width_one : 1 ≤ 1 := by decide

/-- ProductIsTheWeightedResultBits: an index for each clause at `W = 2`; `W = 1` for its own clause. -/
theorem witness_ProductIsTheWeightedResultBits :
    1 ≤ 2 ∧ 1 < 2 ∧ (2 ≤ 2 ∧ 2 < 2 * 2 - 1) ∧ 3 < 2 * 2 := by decide

/-- Settled nets exist at `W = 1`: one seed and nothing else. -/
theorem witness_SettledNetsExistAndAreUnique : 1 ≤ 1 ∧
    GridEquations ppuApprox1 1 [true] [true] (fun i j => decide (i = 0 ∧ j = 0)) (fun _ _ => false) := by
  refine ⟨le_refl 1, ?_, ?_, ?_, ?_, ?_, ?_⟩
  · intro j hj
    obtain rfl : j = 0 := by omega
    decide
  · intro i h1 h2
    omega
  · intro i j h1 h2
    omega
  · intro j h1 h2
    omega
  · intro i j hi hj h _ _
    exact decide_eq_false (by omega)
  · intro i j hi hj _ _
    rfl

theorem witness_ReadsStandAtLowerLevels :
    site 2 1 1 = .cell ∧ site 2 2 2 = .adder ∧ site 1 0 0 ≠ .unwritten := by decide

theorem witness_ProductIsExactPlusWeightedCellErrors : 1 ≤ 2 ∧ 3 < 2 ^ 2 ∧ 3 < 2 ^ 2 := by decide

/-- With the first and the last row of the loop. -/
theorem witness_ExactGridMultipliesRowByRow :
    1 ≤ 4 ∧ 15 < 2 ^ 4 ∧ 15 < 2 ^ 4 ∧ 0 ≤ 4 - 1 ∧ 3 ≤ 4 - 1 := by decide

theorem witness_WidthOneMultipliesForEveryCell : 1 < 2 ∧ 1 < 2 := by decide

/-- At `W = 3`, `1 · 1` and `1 · 3` have the same seeds: `a[2] = 0`. -/
theorem witness_Approx1ProductSeesOnlyTheSeeds : 1 ≤ 3 ∧
    (∀ j, j < 3 → ((1 : Nat).testBit j && (1 : Nat).testBit 0) = ((1 : Nat).testBit j && (3 : Nat).testBit 0)) ∧
    (∀ i, 1 ≤ i → i < 3 →
      ((1 : Nat).testBit (3 - 1) && (1 : Nat).testBit i) = ((1 : Nat).testBit (3 - 1) && (3 : Nat).testBit i)) := by
  refine ⟨by decide, by decide, ?_⟩
  intro i h1 h2
  interval_cases i <;> decide

theorem witness_Approx1RowsOneAndTwo : 2 ≤ 3 ∧ (1 ≤ 1 ∧ 1 ≤ 3 - 1) ∧ 3 ≤ 3 ∧ (2 ≤ 3 ∧ 3 ≤ 3) := by decide

/-- At `W = 2`, a cell, and two values of `b` that differ in bit 1 while `a[1] = 0`. -/
theorem witness_FixedFactsOfEveryVariant : 1 ≤ 2 ∧ 2 ≤ 2 ∧ (1 ≤ 1 ∧ 1 ≤ 2 - 1) ∧ site 2 1 1 = .cell ∧
    (3 : Nat).testBit 0 = (1 : Nat).testBit 0 ∧
    ∀ i, 1 ≤ i → i < 2 →
      ((1 : Nat).testBit (2 - 1) && (3 : Nat).testBit i) = ((1 : Nat).testBit (2 - 1) && (1 : Nat).testBit i) := by
  refine ⟨by decide, by decide, by decide, by decide, by decide, ?_⟩
  intro i h1 h2
  interval_cases i
  decide

/-- For the result statements of the five operations: the boundary width, and operands in range. -/
theorem witness_MulExactDrivesTheProduct : 1 ≤ (ports 1 0 1 1).width ∧ 1 < 2 ^ (ports 1 0 1 1).width := by decide
theorem witness_MulApprox1DrivesItsProduct : 1 ≤ (ports 8 1 3 5).width ∧ 2 ≤ 2 := by decide
theorem witness_MulApprox2DrivesItsProduct : 1 ≤ (ports 8 2 3 5).width := by decide
theorem witness_MulApprox3DrivesItsProduct : 1 ≤ (ports 8 3 3 5).width := by decide
theorem witness_MulApprox4DrivesItsProduct : 1 ≤ (ports 8 4 3 5).width ∧ 2 ≤ 2 := by decide

theorem witness_OperationsChangeOnlyTheOutput :
    exec (.mulExact 6 7) (ports 4 0 6 7) = .next { ports 4 0 6 7 with productO := 42 } := rfl

theorem witness_ZeroWidthIsRefused : (ports 0 0 0 0).width = 0 := rfl

theorem witness_StepRunsTheRequestOnThePorts : (ports 4 1 6 7).Presents 1 6 7 ∧
    decodeReq 4 (packReq 4 1 6 7) = .ok (.mulApprox1 6 7) :=
  ⟨⟨rfl, rfl, rfl⟩, by decide⟩

theorem witness_StepRunsThePresentedTableWord :
    decodeTableWord 24 0x4FFFF = some (.mulApprox4 255 255) := by decide

theorem witness_SettledOutputIsTheProductOfThePorts :
    1 ≤ (ports 2 4 1 0).width ∧ (ports 2 4 1 0).Presents Variant.approx4.code 1 0 :=
  ⟨by decide, rfl, rfl, rfl⟩

/-- The right-hand sides of both refusals are met, codes 5 and 7. -/
theorem witness_OnlyReservedCodesAndZeroWidthAreRefused :
    (ports 2 5 0 0).Presents 5 0 0 ∧ 5 ≤ (5 : BitVec 3).toNat ∧
    (ports 2 7 3 3).Presents 7 3 3 ∧ 5 ≤ (7 : BitVec 3).toNat ∧ (ports 0 0 0 0).width = 0 :=
  ⟨⟨rfl, rfl, rfl⟩, by decide, ⟨rfl, rfl, rfl⟩, by decide, rfl⟩

theorem witness_UnsteadyInputsGiveAnUnspecifiedOutput :
    1 ≤ (ports 1 0 1 1).undrive.width ∧ (ports 1 0 1 1).undrive.Unsteady :=
  ⟨by decide, .inl rfl⟩

theorem witness_StepKeepsPortsInRange : (ports 4 0 15 15).wf = true ∧
    step (ports 4 0 15 15) = .next { ports 4 0 15 15 with productO := 225 } :=
  ⟨by decide, rfl⟩

/-- A step on steady inputs, for the last clause. -/
theorem witness_StepLeavesInputsAndWidth :
    step (ports 2 1 2 1) = .next { ports 2 1 2 1 with productO := 6 } ∧ ¬ (ports 2 1 2 1).Unsteady :=
  ⟨rfl, by simp [State.Unsteady, ports]⟩

theorem witness_RepeatedRequestGivesTheSameState : (ports 2 1 3 3).Presents 1 3 3 ∧
    step (ports 2 1 3 3) = .next { ports 2 1 3 3 with productO := 11 } :=
  ⟨⟨rfl, rfl, rfl⟩, rfl⟩

theorem witness_ResponsesDependOnTheirOwnRequest :
    (ports 4 0 6 7).width = (ports 4 5 1 2).width := rfl

theorem witness_PresentedRequestReturnsItsProduct : 1 ≤ State.reset.width := by decide

theorem witness_LookupTableHoldsEveryProduct : 3 < 2 ^ 2 ∧ 0 < 2 ^ 2 := by decide

end Sys2Proof.Tests
end

/-! PROOFS. The response to a request as a function of the width and the request word alone (10_state.md R31). -/

namespace Sys2Proof.Machine

/-- What the host gets back for a request word on an instance of width `W` (R97): a value in which no other part of
the state occurs. `response_step_of_requestWord` ties it to `step`. -/
def wordResponse (W : Nat) (req : ReqWord W) : Response :=
  match decodeReq W req with
  | .ok i => .next (mul Config.openCells i.variant W i.operandA i.operandB)
  | .error e => .refused (Refusal.ofReject e)

theorem decodeReq_of_zero {W : Nat} (h : W = 0) (req : ReqWord W) : decodeReq W req = .error .zeroWidth :=
  if_pos h

/-- A meaning answers with its product and keeps the width, on an instance that has requests. -/
theorem exec_of_ne_zero {s : State} (h : s.width ≠ 0) (i : Instr) :
    exec i s = .next (s.withProduct (mul Config.openCells i.variant s.width i.operandA i.operandB)) := by
  rw [exec_eq_answer, answer_of_pos _ _ (Nat.one_le_iff_ne_zero.2 h)]

/-- The response reads the request word on the ports and the width; neither the output left behind nor the counter. -/
theorem response_step_of_requestWord {s : State} {req : ReqWord s.width} (h : s.requestWord = some req) :
    response (step s) = wordResponse s.width req := by
  obtain ⟨h0, hs⟩ | ⟨-, hu, -⟩ | ⟨req', i, h0, hr, hd, hs⟩ | ⟨req', e, -, hr, hd, hs⟩ := step_cases s
  · rw [hs, wordResponse, decodeReq_of_zero h0]
    rfl
  · rw [(requestWord_eq_none_iff s).2 hu] at h
    cases h
  · obtain rfl : req' = req := Option.some.inj (hr.symm.trans h)
    rw [hs, exec_of_ne_zero h0, wordResponse, hd]
    rfl
  · obtain rfl : req' = req := Option.some.inj (hr.symm.trans h)
    rw [hs, wordResponse, hd]
    rfl

/-- The width is fixed for an instance (00_scope.md R7). -/
theorem step_keeps_width {s t : State} (h : step s = .next t) : t.width = s.width := by
  obtain ⟨-, hs⟩ | ⟨-, -, hs⟩ | ⟨_, i, h0, -, -, hs⟩ | ⟨_, _, -, -, -, hs⟩ := step_cases s
  · cases hs.symm.trans h
  · cases hs.symm.trans h
    rfl
  · cases (exec_of_ne_zero h0 i).symm.trans (hs.symm.trans h)
    rfl
  · cases hs.symm.trans h

theorem present_presents (s : State) (r : Request) :
    (s.present r).Presents r.variant (r.a % 2 ^ s.width) (r.b % 2 ^ s.width) :=
  ⟨rfl, rfl, rfl⟩

/-- What the host gets back is what it samples after the step. -/
theorem serve_snd (s : State) (r : Request) : (serve s r).2 = response (step (s.present r)) := by
  unfold serve
  cases step (s.present r) <;> rfl

theorem serve_snd_eq_wordResponse (s : State) (r : Request) :
    (serve s r).2 =
      wordResponse s.width (packReq s.width r.variant (r.a % 2 ^ s.width) (r.b % 2 ^ s.width)) :=
  (serve_snd s r).trans
    (response_step_of_requestWord (requestWord_of_presents _ (present_presents s r)))

/-- The state after a request, answered or refused, is of the same instance. -/
theorem serve_keeps_width (s : State) (r : Request) : (serve s r).1.width = s.width := by
  unfold serve
  cases h : step (s.present r) with
  | next t => exact (step_keeps_width h).trans (State.present_width s r)
  | fault f => rfl
  | refused e => rfl

/-- One request gets the same response from any two states of one width. -/
theorem serve_snd_congr {s s' : State} (h : s.width = s'.width) (r : Request) :
    (serve s r).2 = (serve s' r).2 := by
  rw [serve_snd_eq_wordResponse, serve_snd_eq_wordResponse, h]

/-- Settles O53, by induction on the requests: each is served on a state of the width of the first one
(`serve_keeps_width`), and the width is all its response takes from the state (`serve_snd_congr`). -/
theorem responsesDependOnTheirOwnRequest : Obligations.ResponsesDependOnTheirOwnRequest := by
  intro s s' rs h
  induction rs generalizing s with
  | nil => rfl
  | cons r rs ih =>
    rw [serveAll, List.map_cons, serve_snd_congr h r, ih _ ((serve_keeps_width s r).trans h)]

end Sys2Proof.Machine

/-! PROOFS. The encoding, bit by bit, as numbers (40_codec.md R45). -/

namespace Sys2Proof.Machine

/-- A bit inside the width, as the number R45 gives for it. -/
theorem bitValue_bitAt_encodeBits {W i : Nat} (value : Nat) (h : i < W) :
    bitValue (bitAt (encodeBits value W) i) = (value >>> i) &&& 1 := by
  have hbit : bitAt (encodeBits value W) i = value.testBit i := by
    simp [bitAt_encodeBits, h]
  calc bitValue (bitAt (encodeBits value W) i)
      = (value.testBit i).toNat := by rw [hbit, bitValue]
    _ = value / 2 ^ i % 2 := Nat.toNat_testBit value i
    _ = (value >>> i) &&& 1 := by rw [Nat.and_one_is_mod, Nat.shiftRight_eq_div_pow]

/-- Settles O6: the length is the model's own law, and inside the width the encoding holds the operand's bits. -/
theorem encodedBitIsTheShiftedLowBit : Obligations.EncodedBitIsTheShiftedLowBit :=
  fun value W => ⟨encodeBits_length value W, fun _ h => bitValue_bitAt_encodeBits value h⟩

end Sys2Proof.Machine

/-! PROOFS. The exact cell, and the cell the selector picks standing throughout a request's grid (42_ppu_cells.md R56
to R58). -/

namespace Sys2Proof.Machine

/-- The full adder adds its three bits exactly (41_full_adder.md R53). -/
theorem weight_fullAdder (a b c : Bit) : weight (fullAdder a b c) = bitValue a + bitValue b + bitValue c := by
  cases a <;> cases b <;> cases c <;> rfl

/-- The reference a cell is measured against (R56). -/
theorem ppuExact_eq_fullAdder (a b c s : Bit) : ppuExact a b c s = fullAdder (a && b) c s := rfl

/-- Settles O12: the exact cell is the full adder, so its weighted output is the full adder's exact sum. -/
theorem exactCellAddsThePartialProduct : Obligations.ExactCellAddsThePartialProduct := by
  intro a b c s
  refine ⟨rfl, ppuExact_eq_fullAdder a b c s, ?_⟩
  rw [ppuExact_eq_fullAdder, weight_fullAdder]

section
variable (F : Cell) (W : Nat) (a b : BitSeq)

/-- The result is read off the diagonal, the final row and the last carry, in this order (43_array_engine.md R79). -/
theorem resultBit_eq (k : Nat) :
    resultBit F W a b k =
      if k < W then sumNet F W a b k k
      else if k < 2 * W - 1 then sumNet F W a b W k
      else carryNet F W a b W (2 * W - 2) := by
  have hrow : k + 1 < 2 * W ↔ k < 2 * W - 1 := by omega
  rw [resultBit, resultNet]
  simp only [hrow]
  split_ifs <;> rfl

/-- Both nets of an interior position are the two outputs of the one cell there (43_array_engine.md R76). -/
theorem sumNet_carryNet_of_cell {i j : Nat} (h : site W i j = .cell) :
    (sumNet F W a b i j, carryNet F W a b i j) =
      F (bitAt a (j - i)) (bitAt b i) (carryNet F W a b (i - 1) (j - 1)) (sumNet F W a b (i - 1) j) :=
  netAt_of_cell F W a b h

end

/-- Settles O19: the selection is `cellOf`, case by case; the product and the interior positions are those of the
grid of any cell, here the one picked. -/
theorem selectorPicksTheCell : Obligations.SelectorPicksTheCell := by
  refine ⟨fun _ => ⟨rfl, rfl, rfl, rfl, rfl⟩, ?_⟩
  intro p v W aValue bValue _ a b S C
  constructor
  · exact congrArg decodeBits (List.map_congr_left fun k _ => resultBit_eq (cellOf p v) W a b k)
  · intro i j hi hiW hij hj
    exact sumNet_carryNet_of_cell (cellOf p v) W a b ((site_eq_cell_iff W i j).2 ⟨hi, hiW, hij, by omega⟩)

end Sys2Proof.Machine

/-! PROOFS. The nets of the model are settled values of the grid (43_array_engine.md R73 to R77). -/

namespace Sys2Proof.Machine

/-- What no rule writes (43_array_engine.md R73). -/
theorem site_eq_unwritten_iff (W i j : Nat) :
    site W i j = .unwritten ↔
      site W i j ≠ .rowSeed ∧ site W i j ≠ .diagonalSeed ∧ site W i j ≠ .cell ∧ site W i j ≠ .adder := by
  cases site W i j <;> decide

section
variable (F : Cell) (W : Nat) (a b : BitSeq)

theorem sumNet_of_rowSeed {i j : Nat} (h : site W i j = .rowSeed) :
    sumNet F W a b i j = (bitAt a j && bitAt b 0) :=
  congrArg Prod.fst (netAt_of_rowSeed F W a b h)

theorem sumNet_of_diagonalSeed {i j : Nat} (h : site W i j = .diagonalSeed) :
    sumNet F W a b i j = (bitAt a (W - 1) && bitAt b i) :=
  congrArg Prod.fst (netAt_of_diagonalSeed F W a b h)

theorem sumNet_of_unwritten {i j : Nat} (h : site W i j = .unwritten) : sumNet F W a b i j = false :=
  congrArg Prod.fst (netAt_of_unwritten F W a b h)

/-- Both nets of a final-row position are the two outputs of the full adder there (R77). -/
theorem sumNet_carryNet_of_adder {j : Nat} (h : site W W j = .adder) :
    (sumNet F W a b W j, carryNet F W a b W j) =
      fullAdder (sumNet F W a b (W - 1) j) (carryNet F W a b (W - 1) (j - 1)) (carryNet F W a b W (j - 1)) :=
  netAt_of_adder F W a b h

/-- Only cells and adders write a carry: a seed writes its `sum` entry alone (R74, R75). -/
theorem carryNet_of_not_cell_not_adder {i j : Nat} (hcell : site W i j ≠ .cell) (hadder : site W i j ≠ .adder) :
    carryNet F W a b i j = false := by
  cases h : site W i j with
  | rowSeed => exact congrArg Prod.snd (netAt_of_rowSeed F W a b h)
  | diagonalSeed => exact congrArg Prod.snd (netAt_of_diagonalSeed F W a b h)
  | cell => exact absurd h hcell
  | adder => exact absurd h hadder
  | unwritten => exact congrArg Prod.snd (netAt_of_unwritten F W a b h)

end

/-- Settles O20: each index range of the rules is one site of the map, and the nets at a site are what drives it. -/
theorem gridNetsFollowTheRules : Obligations.GridNetsFollowTheRules := by
  intro F W a b hW
  constructor
  case rowSeeds =>
    intro j hj
    exact sumNet_of_rowSeed F W a b ((site_eq_rowSeed_iff W 0 j).2 ⟨rfl, hj⟩)
  case diagonalSeeds =>
    intro i hi hiW
    exact sumNet_of_diagonalSeed F W a b ((site_eq_diagonalSeed_iff W i _).2 ⟨hi, hiW, by omega⟩)
  case cells =>
    intro i j hi hiW hij hj
    exact sumNet_carryNet_of_cell F W a b ((site_eq_cell_iff W i j).2 ⟨hi, hiW, hij, by omega⟩)
  case adders =>
    intro j hj hj2
    exact sumNet_carryNet_of_adder F W a b ((site_eq_adder_iff W W j).2 ⟨hW, rfl, hj, by omega⟩)
  case sumUnwritten =>
    intro i j _ _ hrow hband hfinal
    refine sumNet_of_unwritten F W a b ((site_eq_unwritten_iff W i j).2 ⟨?_, ?_, ?_, ?_⟩)
    · rwa [Ne, site_eq_rowSeed_iff]
    · rw [Ne, site_eq_diagonalSeed_iff]; omega
    · rw [Ne, site_eq_cell_iff]; omega
    · rw [Ne, site_eq_adder_iff]; omega
  case carryUnwritten =>
    intro i j _ _ hband hfinal
    apply carryNet_of_not_cell_not_adder
    · rw [Ne, site_eq_cell_iff]; omega
    · rw [Ne, site_eq_adder_iff]; omega

end Sys2Proof.Machine

/-! PROOFS. The decoder bit by bit (40_codec.md R47), and the product as the number its result bits are
(43_array_engine.md R79, R80). -/

namespace Sys2Proof.Machine

@[simp] theorem bitAt_cons_zero (x : Bit) (xs : BitSeq) : bitAt (x :: xs) 0 = x := rfl

@[simp] theorem bitAt_cons_succ (x : Bit) (xs : BitSeq) (k : Nat) : bitAt (x :: xs) (k + 1) = bitAt xs k := rfl

/-- A decoded sequence is its first bit below the rest (R47). -/
theorem decodeBits_cons_eq_bit (x : Bit) (xs : BitSeq) : decodeBits (x :: xs) = Nat.bit x (decodeBits xs) := by
  rw [decodeBits_cons, Nat.bit_val, bitValue, Nat.add_comm]

/-- The decoder weighs bit `k` by `2^k` (R47). -/
theorem decodeBits_eq_sum (bits : BitSeq) :
    decodeBits bits = ∑ k ∈ Finset.range bits.length, bitValue (bitAt bits k) * 2 ^ k := by
  induction bits with
  | nil => rfl
  | cons x xs ih =>
    have hdouble : ∀ k, bitValue (bitAt (x :: xs) (k + 1)) * 2 ^ (k + 1) = 2 * (bitValue (bitAt xs k) * 2 ^ k) := by
      intro k
      rw [bitAt_cons_succ, pow_succ]
      ring
    rw [decodeBits_cons, List.length_cons, Finset.sum_range_succ', Finset.sum_congr rfl fun k _ => hdouble k,
      ← Finset.mul_sum, ← ih, bitAt_cons_zero, pow_zero, mul_one, Nat.add_comm]

/-- The decoder keeps every bit, and past the end of the sequence both sides are 0 (R47). -/
theorem testBit_decodeBits (bits : BitSeq) (k : Nat) : (decodeBits bits).testBit k = bitAt bits k := by
  induction bits generalizing k with
  | nil => exact Nat.zero_testBit k
  | cons x xs ih =>
    rw [decodeBits_cons_eq_bit]
    cases k with
    | zero => exact Nat.testBit_bit_zero x _
    | succ k => rw [Nat.testBit_bit_succ, ih, bitAt_cons_succ]

section
variable (F : Cell) (W : Nat)

@[simp] theorem resultBits_length (a b : BitSeq) : (resultBits F W a b).length = 2 * W := by
  simp [resultBits]

theorem bitAt_resultBits (a b : BitSeq) {k : Nat} (h : k < 2 * W) :
    bitAt (resultBits F W a b) k = resultBit F W a b k := by
  simp [bitAt, resultBits, h]

/-- The product is the number its `2W` result bits are (R80). -/
theorem mulWith_eq_sum (aValue bValue : Nat) :
    mulWith F W aValue bValue = ∑ k ∈ Finset.range (2 * W),
      bitValue (resultBit F W (encodeBits aValue W) (encodeBits bValue W) k) * 2 ^ k := by
  rw [mulWith, decodeBits_eq_sum, resultBits_length]
  refine Finset.sum_congr rfl fun k hk => ?_
  rw [bitAt_resultBits F W _ _ (Finset.mem_range.1 hk)]

theorem testBit_mulWith (aValue bValue : Nat) {k : Nat} (h : k < 2 * W) :
    (mulWith F W aValue bValue).testBit k =
      resultBit F W (encodeBits aValue W) (encodeBits bValue W) k := by
  rw [mulWith, testBit_decodeBits, bitAt_resultBits F W _ _ h]

theorem resultBit_of_lt (a b : BitSeq) {k : Nat} (h : k < W) : resultBit F W a b k = sumNet F W a b k k := by
  rw [resultBit_eq, if_pos h]

theorem resultBit_of_final_row (a b : BitSeq) {k : Nat} (hk : W ≤ k) (hk2 : k < 2 * W - 1) :
    resultBit F W a b k = sumNet F W a b W k := by
  rw [resultBit_eq, if_neg (by omega), if_pos hk2]

theorem resultBit_last (a b : BitSeq) (hW : 1 ≤ W) :
    resultBit F W a b (2 * W - 1) = carryNet F W a b W (2 * W - 2) := by
  rw [resultBit_eq, if_neg (by omega), if_neg (by omega)]

/-- At `W = 1` the last result bit is read from `carry[1][0]`, where no adder stands (R79, R73). -/
theorem resultBit_one_of_width_one (a b : BitSeq) : resultBit F 1 a b 1 = false := by
  rw [resultBit_last F 1 a b le_rfl]
  exact carryNet_of_not_cell_not_adder F 1 a b (by decide) (by decide)

end

/-- Settles O25: the result bits range by range, and the decoder of R80 on all of them. -/
theorem productIsTheWeightedResultBits : Obligations.ProductIsTheWeightedResultBits := by
  intro F W aValue bValue hW a b
  refine ⟨fun _ h => resultBit_of_lt F W a b h, fun _ h h2 => resultBit_of_final_row F W a b h h2,
    resultBit_last F W a b hW, ?_, mulWith_eq_sum F W aValue bValue,
    fun _ h => testBit_mulWith F W aValue bValue h⟩
  rintro rfl
  exact resultBit_one_of_width_one F a b

end Sys2Proof.Machine

/-! PROOFS. The request word: its fields as numbers, and the decoder by selector code (30_encoding.md R34 to R40). -/

namespace Sys2Proof

section
variable (W : Nat)

/-- The two operand fields together, as the square of one. -/
theorem two_pow_double : 2 ^ (2 * W) = 2 ^ W * 2 ^ W := by
  rw [two_mul, pow_add]

variable (req : ReqWord W)

theorem reqA_eq_mod : reqA W req = req.toNat % 2 ^ W := by
  simp [reqA]

theorem reqB_eq_div_mod : reqB W req = req.toNat / 2 ^ W % 2 ^ W := by
  simp [reqB, Nat.shiftRight_eq_div_pow]

/-- Above the selector field the word has no wire, so the field is the quotient itself. -/
theorem toNat_reqVariant : (reqVariant W req).toNat = req.toNat / 2 ^ (2 * W) := by
  have hlt : req.toNat / 2 ^ (2 * W) < 2 ^ 3 :=
    Nat.div_lt_of_lt_mul (req.isLt.trans_eq (pow_add 2 (2 * W) 3))
  rw [reqVariant, BitVec.extractLsb'_toNat, Nat.shiftRight_eq_div_pow, Nat.mod_eq_of_lt hlt]

theorem reqA_lt : reqA W req < 2 ^ W := by
  rw [reqA_eq_mod]
  exact Nat.mod_lt _ (by positivity)

theorem reqB_lt : reqB W req < 2 ^ W := by
  rw [reqB_eq_div_mod]
  exact Nat.mod_lt _ (by positivity)

/-- The three fields fit the word, so packing drops nothing (R34). -/
theorem toNat_packReq (code : BitVec 3) (a b : Nat) :
    (packReq W code a b).toNat = (code.toNat * 2 ^ W + b % 2 ^ W) * 2 ^ W + a % 2 ^ W := by
  have hpos : 0 < 2 ^ W := by positivity
  have hcode : code.toNat < 8 := code.isLt
  have hb := Nat.mod_lt b hpos
  have ha := Nat.mod_lt a hpos
  have hfit : (code.toNat * 2 ^ W + b % 2 ^ W) * 2 ^ W + a % 2 ^ W < 2 ^ (2 * W + 3) := by
    rw [pow_add, two_pow_double]
    nlinarith
  rw [packReq, BitVec.toNat_ofNat, two_pow_double, ← mul_assoc, ← add_mul, Nat.mod_eq_of_lt hfit]

variable (code : BitVec 3) (a b : Nat)

theorem reqA_packReq : reqA W (packReq W code a b) = a % 2 ^ W := by
  rw [reqA_eq_mod, toNat_packReq, Nat.mul_add_mod', Nat.mod_mod]

/-- Below the selector and the `b` field of a packed word only the `a` field is left. -/
theorem toNat_packReq_div : (packReq W code a b).toNat / 2 ^ W = code.toNat * 2 ^ W + b % 2 ^ W := by
  have hpos : 0 < 2 ^ W := by positivity
  rw [toNat_packReq, mul_comm, Nat.mul_add_div hpos, Nat.div_eq_of_lt (Nat.mod_lt a hpos), add_zero]

theorem reqB_packReq : reqB W (packReq W code a b) = b % 2 ^ W := by
  rw [reqB_eq_div_mod, toNat_packReq_div, Nat.mul_add_mod', Nat.mod_mod]

theorem reqVariant_packReq : reqVariant W (packReq W code a b) = code := by
  have hpos : 0 < 2 ^ W := by positivity
  apply BitVec.eq_of_toNat_eq
  rw [toNat_reqVariant, two_pow_double, ← Nat.div_div_eq_div_mul, toNat_packReq_div, mul_comm,
    Nat.mul_add_div hpos, Nat.div_eq_of_lt (Nat.mod_lt b hpos), add_zero]

/-- A word is its three fields packed again (R34). -/
theorem packReq_fields : packReq W (reqVariant W req) (reqA W req) (reqB W req) = req := by
  apply BitVec.eq_of_toNat_eq
  rw [toNat_packReq, Nat.mod_eq_of_lt (reqA_lt W req), Nat.mod_eq_of_lt (reqB_lt W req), toNat_reqVariant,
    reqA_eq_mod, reqB_eq_div_mod, two_pow_double, ← Nat.div_div_eq_div_mul, Nat.div_add_mod', Nat.div_add_mod']

end

/-- A selector code is that of a variant, or reserved (R35, R38). -/
theorem code_cases (code : BitVec 3) : (∃ v : Variant, code = v.code) ∨ 5 ≤ code.toNat := by
  have hsplit : ∀ code : BitVec 3,
      (∃ v ∈ [Variant.exact, .approx1, .approx2, .approx3, .approx4], code = v.code) ∨ 5 ≤ code.toNat := by
    decide
  exact (hsplit code).imp_left fun ⟨v, _, h⟩ => ⟨v, h⟩

section
variable {W : Nat} {req : ReqWord W} (hW : W ≠ 0)
include hW

/-- The code of a variant decodes to its operation on the two operand fields (R40). -/
theorem decodeReq_of_code {v : Variant} (h : reqVariant W req = v.code) :
    decodeReq W req = .ok (Instr.ofVariant v (reqA W req) (reqB W req)) := by
  cases v <;> simp [decodeReq, hW, h, Variant.code, Instr.ofVariant]

/-- A reserved code is rejected with the code (R38, R99). -/
theorem decodeReq_of_reserved (h : 5 ≤ (reqVariant W req).toNat) :
    decodeReq W req = .error (.reservedVariant (reqVariant W req)) := by
  have hne : ∀ code : BitVec 3, code.toNat < 5 → reqVariant W req ≠ code := by
    rintro code hlt rfl
    omega
  rw [decodeReq, if_neg hW, if_neg (hne 0 (by decide)), if_neg (hne 1 (by decide)), if_neg (hne 2 (by decide)),
    if_neg (hne 3 (by decide)), if_neg (hne 4 (by decide))]

end

theorem Instr.wf_iff (W : Nat) (i : Instr) :
    i.wf W = true ↔ 1 ≤ W ∧ i.operandA < 2 ^ W ∧ i.operandB < 2 ^ W := by
  simp [Instr.wf, and_assoc]

/-- An operation is its variant and its operands (R33). -/
theorem Instr.ofVariant_fields (i : Instr) : Instr.ofVariant i.variant i.operandA i.operandB = i := by
  cases i with
  | mulExact a b => exact Laws.Fields.mulExact a b
  | mulApprox1 a b => exact Laws.Fields.mulApprox1 a b
  | mulApprox2 a b => exact Laws.Fields.mulApprox2 a b
  | mulApprox3 a b => exact Laws.Fields.mulApprox3 a b
  | mulApprox4 a b => exact Laws.Fields.mulApprox4 a b

section
variable (v : Variant) (a b : Nat)

@[simp] theorem Instr.variant_ofVariant : (Instr.ofVariant v a b).variant = v := by cases v <;> rfl
@[simp] theorem Instr.operandA_ofVariant : (Instr.ofVariant v a b).operandA = a := by cases v <;> rfl
@[simp] theorem Instr.operandB_ofVariant : (Instr.ofVariant v a b).operandB = b := by cases v <;> rfl

end

/-- Settles O2: the selector field of the packed word is the variant's code, and its operand fields are the operands,
which the width admits. -/
theorem decodeOfEncodeIsTheInstruction : Obligations.DecodeOfEncodeIsTheInstruction := by
  intro W i hwf
  obtain ⟨hW, ha, hb⟩ := (Instr.wf_iff W i).1 hwf
  have hcode : reqVariant W (encodeReq W i) = i.variant.code := reqVariant_packReq W _ _ _
  have hA : reqA W (encodeReq W i) = i.operandA := (reqA_packReq W _ _ _).trans (Nat.mod_eq_of_lt ha)
  have hB : reqB W (encodeReq W i) = i.operandB := (reqB_packReq W _ _ _).trans (Nat.mod_eq_of_lt hb)
  rw [decodeReq_of_code (Nat.one_le_iff_ne_zero.1 hW) hcode, hA, hB, Instr.ofVariant_fields]

/-- Settles O5, field by field. -/
theorem packedRequestFields : Obligations.PackedRequestFields :=
  fun W code a b => ⟨reqVariant_packReq W code a b, reqA_packReq W code a b, reqB_packReq W code a b⟩

/-- Settles O3: an accepted word has the code of a variant, so what it decodes to carries its three fields, and a word
is its fields packed again. -/
theorem encodeOfDecodeIsTheWord : Obligations.EncodeOfDecodeIsTheWord := by
  intro W req i hok
  have hW : W ≠ 0 := by
    intro h
    cases (Machine.decodeReq_of_zero h req).symm.trans hok
  obtain ⟨v, hv⟩ | hres := code_cases (reqVariant W req)
  · obtain rfl : Instr.ofVariant v (reqA W req) (reqB W req) = i :=
      Except.ok.inj ((decodeReq_of_code hW hv).symm.trans hok)
    constructor
    · simp [Instr.wf_iff, Nat.one_le_iff_ne_zero, hW, reqA_lt, reqB_lt]
    · simp [encodeReq, ← hv, packReq_fields]
  · cases (decodeReq_of_reserved hW hres).symm.trans hok

/-- Settles O4: each selector code selects its arm of the decoder. -/
theorem decodingFollowsTheSelectorField : Obligations.DecodingFollowsTheSelectorField := by
  intro W req hW code b a
  have hW0 : W ≠ 0 := Nat.one_le_iff_ne_zero.1 hW
  have hcode : (reqVariant W req).toNat = code := toNat_reqVariant W req
  have harm (v : Variant) (h : code = v.code.toNat) : decodeReq W req = .ok (Instr.ofVariant v a b) := by
    rw [decodeReq_of_code hW0 (BitVec.eq_of_toNat_eq (hcode.trans h)), reqA_eq_mod, reqB_eq_div_mod]
  refine ⟨harm .exact, harm .approx1, harm .approx2, harm .approx3, harm .approx4, fun h => ?_⟩
  rw [decodeReq_of_reserved hW0 (h.trans_eq hcode.symm), ← hcode, BitVec.ofNat_toNat, BitVec.setWidth_eq]

/-- Settles O1: the decoder run on the nine words. -/
theorem sampleRequestWordsDecode : Obligations.SampleRequestWordsDecode := by
  unfold Obligations.SampleRequestWordsDecode
  decide

end Sys2Proof

/-! PROOFS. The codec's round trips (40_codec.md R45 to R49), and what they give of any product: its range
(43_array_engine.md R88) and the masking of its operands (60_exceptions.md R98). -/

namespace Sys2Proof.Machine

/-- The encoding decodes to the operand's low `W` bits (R48): both sides have the same bits. -/
theorem decodeBits_encodeBits (value W : Nat) : decodeBits (encodeBits value W) = value % 2 ^ W := by
  apply Nat.eq_of_testBit_eq
  intro k
  rw [testBit_decodeBits, bitAt_encodeBits, Nat.testBit_mod_two_pow]

/-- Sequences of one length with the same bits are the same. -/
theorem bitSeq_ext {xs ys : BitSeq} (hlen : xs.length = ys.length) (hbit : ∀ k, bitAt xs k = bitAt ys k) :
    xs = ys := by
  apply List.ext_getElem hlen
  intro k hx hy
  simpa [bitAt, hx, hy] using hbit k

/-- Past the end of a sequence its bits are 0. -/
theorem bitAt_of_length_le {bits : BitSeq} {k : Nat} (h : bits.length ≤ k) : bitAt bits k = false :=
  List.getD_eq_default _ _ h

/-- A sequence is the encoding, at its own length, of what it decodes to (R49). -/
theorem encodeBits_decodeBits (bits : BitSeq) : encodeBits (decodeBits bits) bits.length = bits := by
  refine bitSeq_ext (encodeBits_length _ _) fun k => ?_
  rw [bitAt_encodeBits, testBit_decodeBits]
  by_cases hk : k < bits.length
  · simp [hk]
  · simp [hk, bitAt_of_length_le (Nat.le_of_not_lt hk)]

/-- The encoder masks (R46, D5): `value % 2^W` is what the encoding decodes to, so it has that encoding. -/
theorem encodeBits_mod (value W : Nat) : encodeBits (value % 2 ^ W) W = encodeBits value W := by
  have hround := encodeBits_decodeBits (encodeBits value W)
  rwa [decodeBits_encodeBits, encodeBits_length] at hround

theorem mulWith_mod (F : Cell) (W a b : Nat) : mulWith F W (a % 2 ^ W) (b % 2 ^ W) = mulWith F W a b := by
  simp only [mulWith, encodeBits_mod]

theorem mul_mod (p : OpenCells) (v : Variant) (W a b : Nat) :
    mul p v W (a % 2 ^ W) (b % 2 ^ W) = mul p v W a b :=
  mulWith_mod (cellOf p v) W a b

/-- Settles O7. -/
theorem encodeTakesTheOperandModulo : Obligations.EncodeTakesTheOperandModulo :=
  fun value W => (encodeBits_mod value W).symm

/-- Settles O8: the weighted sum, and the bound by the length. -/
theorem decodeIsTheWeightedSum : Obligations.DecodeIsTheWeightedSum :=
  fun bits => ⟨decodeBits_eq_sum bits, decodeBits_lt bits⟩

/-- Settles O9. -/
theorem decodeOfEncodeIsTheOperand : Obligations.DecodeOfEncodeIsTheOperand :=
  fun value W => ⟨decodeBits_encodeBits value W,
    fun h => (decodeBits_encodeBits value W).trans (Nat.mod_eq_of_lt h)⟩

/-- Settles O10. -/
theorem encodeOfDecodeIsTheSequence : Obligations.EncodeOfDecodeIsTheSequence :=
  encodeBits_decodeBits

/-- Settles O26: whatever the cell, the product is decoded from `2W` bits. -/
theorem productFitsTheOutputPort : Obligations.ProductFitsTheOutputPort := by
  intro F W a b
  have hlt := decodeBits_lt (resultBits F W (encodeBits a W) (encodeBits b W))
  rwa [resultBits_length] at hlt

end Sys2Proof.Machine

/-! PROOFS. One step from a state, by what stands on the ports, and what every step keeps (70_reset_and_hazards.md
R107 to R115, 60_exceptions.md R97). -/

namespace Sys2Proof.Machine

section
variable {s t : State} {code : BitVec 3} {a b : Nat}

/-- The ports hold a request, or some input is not steadily driven (R107, R112). -/
theorem unsteady_or_presents (s : State) : s.Unsteady ∨ ∃ code a b, s.Presents code a b := by
  unfold State.Unsteady State.Presents
  cases s.variantI <;> cases s.aI <;> cases s.bI <;> simp

theorem not_unsteady_of_presents (h : s.Presents code a b) : ¬ s.Unsteady := by
  obtain ⟨hv, ha, hb⟩ := h
  simp [State.Unsteady, hv, ha, hb]

/-- The three ports hold one request at most. -/
theorem presents_code_inj {code' : BitVec 3} {a' b' : Nat} (h : s.Presents code a b) (h' : s.Presents code' a' b') :
    code = code' :=
  Option.some.inj (h.1.symm.trans h'.1)

theorem step_of_zero (h : s.width = 0) : step s = .refused .zeroWidth :=
  if_pos h

theorem step_of_unsteady (h : s.width ≠ 0) (hu : s.Unsteady) : step s = .next s.unspecified := by
  rw [step, if_neg h, (requestWord_eq_none_iff s).2 hu]

/-- A request that decodes is run; at width 0 none does. -/
theorem step_of_decode_ok {i : Instr} (h : s.Presents code a b)
    (hd : decodeReq s.width (packReq s.width code a b) = .ok i) : step s = exec i s := by
  have h0 : s.width ≠ 0 := by
    intro h0
    cases (decodeReq_of_zero h0 _).symm.trans hd
  simp only [step, if_neg h0, requestWord_of_presents s h, hd]

/-- A request with the code of a variant is answered with the product of its operands (R18, R110): the ports' wires
mask them, and so does the product. -/
theorem step_of_code {v : Variant} (h0 : s.width ≠ 0) (h : s.Presents v.code a b) :
    step s = .next (s.withProduct (mul Config.openCells v s.width a b)) := by
  have hd := decodeReq_of_code h0 (reqVariant_packReq s.width v.code a b)
  rw [step_of_decode_ok h hd, exec_of_ne_zero h0, Instr.variant_ofVariant, Instr.operandA_ofVariant,
    Instr.operandB_ofVariant, reqA_packReq, reqB_packReq, mul_mod]

/-- A request with a reserved code is refused with the code (R38, R99). -/
theorem step_of_reserved (h0 : s.width ≠ 0) (h : s.Presents code a b) (hcode : 5 ≤ code.toNat) :
    step s = .refused (.reservedVariant code) := by
  have hfield := reqVariant_packReq s.width code a b
  have hd := decodeReq_of_reserved h0 (hcode.trans_eq (congrArg BitVec.toNat hfield.symm))
  rw [hfield] at hd
  simp only [step, if_neg h0, requestWord_of_presents s h, hd, Refusal.ofReject]

/-- Everything a step can do, by what stands on the ports. -/
theorem step_ports_cases (s : State) :
    (s.width = 0 ∧ step s = .refused .zeroWidth) ∨
    (s.width ≠ 0 ∧ s.Unsteady ∧ step s = .next s.unspecified) ∨
    (∃ v a b, s.width ≠ 0 ∧ s.Presents (Variant.code v) a b ∧
      step s = .next (s.withProduct (mul Config.openCells v s.width a b))) ∨
    (∃ code a b, s.width ≠ 0 ∧ s.Presents code a b ∧ 5 ≤ code.toNat ∧
      step s = .refused (.reservedVariant code)) := by
  by_cases h0 : s.width = 0
  · exact .inl ⟨h0, step_of_zero h0⟩
  · obtain hu | ⟨code, a, b, hp⟩ := unsteady_or_presents s
    · exact .inr (.inl ⟨h0, hu, step_of_unsteady h0 hu⟩)
    · obtain ⟨v, rfl⟩ | hcode := code_cases code
      · exact .inr (.inr (.inl ⟨v, a, b, h0, hp, step_of_code h0 hp⟩))
      · exact .inr (.inr (.inr ⟨code, a, b, h0, hp, hcode, step_of_reserved h0 hp hcode⟩))

/-- The two ways a step ends in a next state. -/
theorem next_of_step (h : step s = .next t) :
    (s.Unsteady ∧ t = s.unspecified) ∨
    (∃ v a b, s.Presents (Variant.code v) a b ∧ t = s.withProduct (mul Config.openCells v s.width a b)) := by
  obtain ⟨-, hs⟩ | ⟨-, hu, hs⟩ | ⟨v, a, b, -, hp, hs⟩ | ⟨_, _, _, -, -, -, hs⟩ := step_ports_cases s
  · cases hs.symm.trans h
  · cases hs.symm.trans h
    exact .inl ⟨hu, rfl⟩
  · cases hs.symm.trans h
    exact .inr ⟨v, a, b, hp, rfl⟩
  · cases hs.symm.trans h

end

theorem State.wf_iff (s : State) : s.wf = true ↔
    1 ≤ s.width ∧ (∀ a, s.aI = some a → a < 2 ^ s.width) ∧ (∀ b, s.bI = some b → b < 2 ^ s.width) ∧
      s.productO < 2 ^ (2 * s.width) := by
  simp [State.wf, and_assoc, Option.all_eq_true]

/-- Settles O48: a step leaves the width and the operand ports, and the output it drives is a value of `2W` wires, as
a product or as a free value. -/
theorem stepKeepsPortsInRange : Obligations.StepKeepsPortsInRange := by
  intro s t hwf hstep
  rw [State.wf_iff] at hwf ⊢
  obtain ⟨hW, ha, hb, -⟩ := hwf
  obtain ⟨-, rfl⟩ | ⟨v, a, b, -, rfl⟩ := next_of_step hstep
  · exact ⟨hW, ha, hb, (Config.unspecifiedProduct s.width s.freeIndex).isLt⟩
  · exact ⟨hW, ha, hb, productFitsTheOutputPort (cellOf Config.openCells v) s.width a b⟩

/-- Settles O49: no input is driven, and the output is a free value of the `2W` wires. -/
theorem resetPortsAreInRange : Obligations.ResetPortsAreInRange := by
  refine (State.wf_iff State.reset).2 ⟨by decide, ?_, ?_, (Config.unspecifiedProduct _ 0).isLt⟩
  · intro a ha
    cases ha
  · intro b hb
    cases hb

/-- Settles O50: the fields of the state after reset, as they stand in its definition. -/
theorem resetDrivesNoInput : Obligations.ResetDrivesNoInput :=
  ⟨rfl, rfl, rfl, rfl, rfl⟩

/-- Settles O41: a meaning that answers has driven `product_o` and nothing else. -/
theorem operationsChangeOnlyTheOutput : Obligations.OperationsChangeOnlyTheOutput := by
  intro i s t h
  rw [exec_eq_answer, answer_eq_next_iff] at h
  obtain ⟨-, rfl⟩ := h
  exact ⟨rfl, rfl, rfl, rfl, rfl⟩

/-- Settles O42. -/
theorem zeroWidthIsRefused : Obligations.ZeroWidthIsRefused :=
  fun i s h => ⟨(exec_eq_answer s i).trans (answer_of_zero s _ h), step_of_zero h⟩

/-- Settles O43. -/
theorem stepRunsTheRequestOnThePorts : Obligations.StepRunsTheRequestOnThePorts :=
  fun _ _ _ _ _ hp hd => step_of_decode_ok hp hd

/-- Settles O45. -/
theorem settledOutputIsTheProductOfThePorts : Obligations.SettledOutputIsTheProductOfThePorts :=
  fun _ _ _ _ hW hp => step_of_code (Nat.one_le_iff_ne_zero.1 hW) hp

/-- Settles O46: in each of the four cases of a step the outcome is known, and the ports decide between the cases. -/
theorem onlyReservedCodesAndZeroWidthAreRefused : Obligations.OnlyReservedCodesAndZeroWidthAreRefused := by
  intro s
  refine ⟨nofun, ⟨fun h => ?_, step_of_zero⟩, fun code => ⟨fun h => ?_, ?_⟩, fun m h => ?_⟩
  · obtain ⟨h0, -⟩ | ⟨-, -, hs⟩ | ⟨_, _, _, -, -, hs⟩ | ⟨_, _, _, -, -, -, hs⟩ := step_ports_cases s
    · exact h0
    all_goals cases hs.symm.trans h
  · obtain ⟨-, hs⟩ | ⟨-, -, hs⟩ | ⟨_, _, _, -, -, hs⟩ | ⟨_, a, b, h0, hp, hcode, hs⟩ := step_ports_cases s
    case inr.inr.inr =>
      cases hs.symm.trans h
      exact ⟨h0, hcode, a, b, hp⟩
    all_goals cases hs.symm.trans h
  · rintro ⟨h0, hcode, a, b, hp⟩
    exact step_of_reserved h0 hp hcode
  · obtain ⟨-, hs⟩ | ⟨-, -, hs⟩ | ⟨_, _, _, -, -, hs⟩ | ⟨_, _, _, -, -, -, hs⟩ := step_ports_cases s
    all_goals cases hs.symm.trans h

/-- Settles O47. -/
theorem unsteadyInputsGiveAnUnspecifiedOutput : Obligations.UnsteadyInputsGiveAnUnspecifiedOutput :=
  fun _ hW hu => step_of_unsteady (Nat.one_le_iff_ne_zero.1 hW) hu

/-- Settles O51: both ways to a next state leave the inputs and the width; only the one on unsteady inputs draws a
free value. -/
theorem stepLeavesInputsAndWidth : Obligations.StepLeavesInputsAndWidth := by
  intro s t h
  obtain ⟨hu, rfl⟩ | ⟨_, _, _, -, rfl⟩ := next_of_step h
  · exact ⟨rfl, rfl, rfl, rfl, fun hsteady => absurd hu hsteady⟩
  · exact ⟨rfl, rfl, rfl, rfl, fun _ => rfl⟩

/-- Settles O52: the state after a step on a request holds the same request, and its output is driven again with the
product already there. -/
theorem repeatedRequestGivesTheSameState : Obligations.RepeatedRequestGivesTheSameState := by
  intro s t code a b hp h
  obtain ⟨hu, -⟩ | ⟨v, a', b', hp', rfl⟩ := next_of_step h
  · exact absurd hu (not_unsteady_of_presents hp)
  · have h0 : s.width ≠ 0 := by
      intro h0
      cases (step_of_zero h0).symm.trans h
    exact step_of_code (s := s.withProduct _) h0 hp'

end Sys2Proof.Machine

/-! PROOFS. The host's side: presented requests and table words (30_encoding.md R39, 60_exceptions.md R101). -/

namespace Sys2Proof.Machine

/-- Settles O54: the presented request stands on the ports, so the step settles its product, which the masking of the
operands to the ports does not change. -/
theorem presentedRequestReturnsItsProduct : Obligations.PresentedRequestReturnsItsProduct := by
  intro s v a b hW
  have hstep := step_of_code (s := s.present ⟨v.code, a, b⟩) (Nat.one_le_iff_ne_zero.1 hW) (present_presents s _)
  rw [serve_snd, hstep, State.present_width, mul_mod]
  rfl

/-- Presenting the three fields of a word puts the word on the ports. -/
theorem packReq_fields_mod (W : Nat) (req : ReqWord W) :
    packReq W (reqVariant W req) (reqA W req % 2 ^ W) (reqB W req % 2 ^ W) = req := by
  rw [Nat.mod_eq_of_lt (reqA_lt W req), Nat.mod_eq_of_lt (reqB_lt W req), packReq_fields]

/-- The table's decoder is `decode_req` on the word at the conventional width (R39, R40; log 11). -/
theorem decodeReq_of_decodeTableWord {nbits w : Nat} {i : Instr} (h : decodeTableWord nbits w = some i) :
    decodeReq Config.conventionalWidth (BitVec.ofNat _ (w % 2 ^ nbits)) = .ok i := by
  unfold decodeTableWord at h
  split_ifs at h
  cases hd : decodeReq Config.conventionalWidth (BitVec.ofNat _ (w % 2 ^ nbits)) with
  | ok j =>
    rw [hd] at h
    exact congrArg Except.ok (Option.some.inj h)
  | error r =>
    rw [hd] at h
    cases h

/-- Settles O44: the word presented is the request word on the ports, and it decodes to the operation. -/
theorem stepRunsThePresentedTableWord : Obligations.StepRunsThePresentedTableWord := by
  intro s nbits w i h
  refine step_of_decode_ok (present_presents { s with width := Config.conventionalWidth } _) ?_
  exact (congrArg _ (packReq_fields_mod _ _)).trans (decodeReq_of_decodeTableWord h)

/-- Settles O56: both actions of the host are a draw of a free value over the new inputs. -/
theorem hostActionsLeaveTheOutputUnspecified : Obligations.HostActionsLeaveTheOutputUnspecified :=
  fun _ _ => ⟨rfl, rfl⟩

/-- Row `a` of the exporter's table (R101). -/
theorem lutRows_getD (p : OpenCells) (v : Variant) {W a : Nat} (ha : a < 2 ^ W) :
    (lutRows p v W).getD a [] = a :: (List.range (2 ^ W)).map fun b => mul p v W a b := by
  simp [lutRows, ha]

/-- Settles O55. -/
theorem lookupTableHoldsEveryProduct : Obligations.LookupTableHoldsEveryProduct := by
  intro p v W
  refine ⟨rfl, by simp [lutRows], fun a b ha hb => ?_⟩
  rw [lutRows_getD p v ha]
  exact ⟨by simp, rfl, by simp [hb]⟩

end Sys2Proof.Machine

/-! PROOFS. The full adder and the five cells (41_full_adder.md R53, 42_ppu_cells.md R59 to R70). -/

namespace Sys2Proof.Machine

/-- Settles O11: the parity and the majority follow from the exact addition. -/
theorem fullAdderAddsThreeBits : Obligations.FullAdderAddsThreeBits := by
  intro a b c
  have hweight : bitValue (fullAdder a b c).1 + 2 * bitValue (fullAdder a b c).2 =
      bitValue a + bitValue b + bitValue c := weight_fullAdder a b c
  have hsum := bitValue_le_one (fullAdder a b c).1
  have hcarry_le := bitValue_le_one (fullAdder a b c).2
  have hcarry : (fullAdder a b c).2 = true ↔ bitValue (fullAdder a b c).2 = 1 := Bool.toNat_eq_one.symm
  refine ⟨rfl, hweight, by omega, ?_, ?_, ?_⟩
  · rw [hcarry]
    omega
  · cases a <;> cases b <;> cases c <;> rfl
  · cases a <;> cases b <;> cases c <;> rfl

/-- Settles O13, by the sixteen rows. -/
theorem approx1CellIsXorAndNand : Obligations.Approx1CellIsXorAndNand := by
  unfold Obligations.Approx1CellIsXorAndNand
  decide

/-- Settles O14, by evaluating both tables. -/
theorem cellTablesOfExactAndApprox1 : Obligations.CellTablesOfExactAndApprox1 :=
  ⟨rfl, rfl⟩

/-- Settles O15. -/
theorem approx2CellIsTheOpenFunction : Obligations.Approx2CellIsTheOpenFunction :=
  fun _ _ _ _ _ => rfl

section
variable (p : OpenCells) (a b c s : Bit)

/-- The two inversions of R63 leave `t7` itself on the carry. -/
theorem ppuApprox3_eq : ppuApprox3 p a b c s = (!(p.t7of3 a b c s), p.t7of3 a b c s) := by
  simp [ppuApprox3]

theorem ppuApprox3_carry : (ppuApprox3 p a b c s).2 = !(ppuApprox3 p a b c s).1 := rfl

/-- An output pair whose bits differ is none of those whose bits agree. -/
theorem ppuApprox3_ne_of_agree {out : Bit × Bit} (h : out = (false, false) ∨ out = (true, true)) :
    ppuApprox3 p a b c s ≠ out := by
  rw [ppuApprox3_eq]
  obtain rfl | rfl := h <;> cases p.t7of3 a b c s <;> decide

end

/-- The rows on which the exact cell's two outputs agree (R69). -/
theorem ppuExact_agree_iff : ∀ a b c s : Bit,
    (ppuExact a b c s = (false, false) ∨ ppuExact a b c s = (true, true)) ↔
      (a, b, c, s) = (false, false, false, false) ∨ (a, b, c, s) = (false, true, false, false) ∨
      (a, b, c, s) = (true, false, false, false) ∨ (a, b, c, s) = (true, true, true, true) := by
  decide

/-- Settles O16: `t7` is the only thing open, and each of its two values gives complementary outputs. -/
theorem approx3CarryIsComplementOfSum : Obligations.Approx3CarryIsComplementOfSum := by
  intro p a b c s
  refine ⟨ppuApprox3_eq p a b c s, ppuApprox3_carry p a b c s, ?_, ppuExact_agree_iff a b c s,
    ppuApprox3_ne_of_agree p a b c s⟩
  rw [ppuApprox3_eq]
  cases p.t7of3 a b c s <;> decide

/-- The parity `s ⊕ c ⊕ a` is the exact sum unless `a` counts where `a ∧ b` does not (R66). -/
theorem xor_eq_ppuExact_sum_iff : ∀ a b c s : Bit,
    ((s ^^ c) ^^ a) = (ppuExact a b c s).1 ↔ a = false ∨ b = true := by
  decide

/-- Settles O17. -/
theorem approx4IgnoresBAndSumsParity : Obligations.Approx4IgnoresBAndSumsParity :=
  fun _ a b _ c s => ⟨rfl, rfl, xor_eq_ppuExact_sum_iff a b c s⟩

theorem cellError_ppuExact (a b c s : Bit) : cellError ppuExact a b c s = 0 := by
  rw [cellError, (exactCellAddsThePartialProduct a b c s).2.2, sub_self]

theorem weight_le_three (out : Bit × Bit) : weight out ≤ 3 := by
  have h1 := bitValue_le_one out.1
  have h2 := bitValue_le_one out.2
  rw [weight]
  omega

/-- Settles O18: the bound is that both the output and the reference lie between 0 and 3. -/
theorem cellErrorsOfExactAndApprox1 : Obligations.CellErrorsOfExactAndApprox1 := by
  refine ⟨cellError_ppuExact, by decide, fun F a b c s => ?_⟩
  have hout := weight_le_three (F a b c s)
  have hab := bitValue_le_one (a && b)
  have hc := bitValue_le_one c
  have hs := bitValue_le_one s
  rw [cellError]
  omega

end Sys2Proof.Machine

/-! PROOFS. The error identity (43_array_engine.md R89), row by row as in R90: what stands in a row, with the result
bits below it, grows by one partial product and the row's cell errors. -/

namespace Sys2Proof.Machine

/-- The weighted value standing in the grid once row `i` is filled: the result bits below the row, and the row's sums
and carries (R90). `mulWith_eq_rowTotal` ties it to the product. -/
def rowTotal (F : Cell) (W : Nat) (a b : BitSeq) (i : Nat) : Nat :=
  (∑ k ∈ Finset.range i, bitValue (sumNet F W a b k k) * 2 ^ k) +
  (∑ j ∈ Finset.Ico i (i + W), bitValue (sumNet F W a b i j) * 2 ^ j) +
  (∑ j ∈ Finset.Ico i (i + W - 1), bitValue (carryNet F W a b i j) * 2 ^ (j + 1))

/-- The error of the cell at `(i, j)` on the values the grid takes there (R70, R89). -/
def netError (F : Cell) (W : Nat) (a b : BitSeq) (i j : Nat) : Int :=
  cellError F (bitAt a (j - i)) (bitAt b i) (carryNet F W a b (i - 1) (j - 1)) (sumNet F W a b (i - 1) j)

theorem bitValue_and (x y : Bit) : bitValue (x && y) = bitValue x * bitValue y := by
  cases x <;> cases y <;> rfl

section
variable (F : Cell) (w : Nat) (a b : BitSeq)

/-- The row total with columns counted from the row's first, at `W = w + 1`. -/
theorem rowTotal_eq_range (i : Nat) :
    rowTotal F (w + 1) a b i =
      (∑ k ∈ Finset.range i, bitValue (sumNet F (w + 1) a b k k) * 2 ^ k) +
      (∑ t ∈ Finset.range (w + 1), bitValue (sumNet F (w + 1) a b i (i + t)) * 2 ^ (i + t)) +
      (∑ t ∈ Finset.range w, bitValue (carryNet F (w + 1) a b i (i + t)) * 2 ^ (i + t + 1)) := by
  have hlen : i + (w + 1) - 1 - i = w := by omega
  rw [rowTotal, Finset.sum_Ico_eq_sum_range, Finset.sum_Ico_eq_sum_range, Nat.add_sub_cancel_left, hlen]

/-- Row 0 holds `a` where `b[0]` is 1 (R74), and no carry. -/
theorem rowTotal_zero :
    rowTotal F (w + 1) a b 0 = (∑ t ∈ Finset.range (w + 1), bitValue (bitAt a t) * 2 ^ t) * bitValue (bitAt b 0) := by
  have hsum : ∀ t ∈ Finset.range (w + 1), bitValue (sumNet F (w + 1) a b 0 (0 + t)) * 2 ^ (0 + t) =
      bitValue (bitAt a t) * 2 ^ t * bitValue (bitAt b 0) := by
    intro t ht
    have hsite := (site_eq_rowSeed_iff (w + 1) 0 t).2 ⟨rfl, Finset.mem_range.1 ht⟩
    rw [zero_add, sumNet_of_rowSeed F (w + 1) a b hsite, bitValue_and]
    ring
  have hcarry : ∀ t ∈ Finset.range w, bitValue (carryNet F (w + 1) a b 0 (0 + t)) * 2 ^ (0 + t + 1) = 0 := by
    intro t _
    rw [carryNet_of_not_cell_not_adder F (w + 1) a b, bitValue, Bool.toNat_false, zero_mul]
    · rw [Ne, site_eq_cell_iff]; omega
    · rw [Ne, site_eq_adder_iff]; omega
  rw [rowTotal_eq_range, Finset.sum_congr rfl hsum, Finset.sum_eq_zero hcarry, Finset.sum_mul,
    Finset.sum_range_zero, zero_add, add_zero]

/-- What a cell puts out, against the three bits it is given (R70). -/
theorem cell_balance {i t : Nat} (hi : i + 1 < w + 1) (ht : t < w) :
    (bitValue (sumNet F (w + 1) a b (i + 1) (i + 1 + t)) : Int) +
        2 * bitValue (carryNet F (w + 1) a b (i + 1) (i + 1 + t)) =
      bitValue (bitAt a t) * bitValue (bitAt b (i + 1)) + bitValue (carryNet F (w + 1) a b i (i + t)) +
        bitValue (sumNet F (w + 1) a b i (i + (t + 1))) + netError F (w + 1) a b (i + 1) (i + 1 + t) := by
  have hsite : site (w + 1) (i + 1) (i + 1 + t) = .cell :=
    (site_eq_cell_iff _ _ _).2 ⟨by omega, hi, by omega, by omega⟩
  have hpair := sumNet_carryNet_of_cell F (w + 1) a b hsite
  have hcol : i + 1 + t = i + (t + 1) := by omega
  have hop : i + (t + 1) - (i + 1) = t := by omega
  have hleft : i + (t + 1) - 1 = i + t := by omega
  have hrow : i + 1 - 1 = i := by omega
  rw [hcol, hop, hleft, hrow] at hpair
  rw [netError, cellError, hcol, hop, hleft, hrow, ← hpair, bitValue_and, weight]
  push_cast
  ring

/-- One row further: one more partial product, and the errors of the row's cells (R75, R76). -/
theorem rowTotal_succ {i : Nat} (hi : i + 1 < w + 1) :
    (rowTotal F (w + 1) a b (i + 1) : Int) = rowTotal F (w + 1) a b i +
      (∑ t ∈ Finset.range (w + 1), bitValue (bitAt a t) * 2 ^ t : Nat) * (bitValue (bitAt b (i + 1)) * 2 ^ (i + 1)) +
      ∑ t ∈ Finset.range w, netError F (w + 1) a b (i + 1) (i + 1 + t) * 2 ^ (i + 1 + t) := by
  have hseed : sumNet F (w + 1) a b (i + 1) (i + 1 + w) = (bitAt a w && bitAt b (i + 1)) :=
    sumNet_of_diagonalSeed F (w + 1) a b ((site_eq_diagonalSeed_iff _ _ _).2 ⟨by omega, hi, by omega⟩)
  have hcells : ∀ t ∈ Finset.range w,
      (bitValue (sumNet F (w + 1) a b (i + 1) (i + 1 + t)) : Int) * 2 ^ (i + 1 + t) +
        bitValue (carryNet F (w + 1) a b (i + 1) (i + 1 + t)) * 2 ^ (i + 1 + t + 1) =
      bitValue (sumNet F (w + 1) a b i (i + (t + 1))) * 2 ^ (i + (t + 1)) +
        bitValue (carryNet F (w + 1) a b i (i + t)) * 2 ^ (i + t + 1) +
        bitValue (bitAt a t) * 2 ^ t * (bitValue (bitAt b (i + 1)) * 2 ^ (i + 1)) +
        netError F (w + 1) a b (i + 1) (i + 1 + t) * 2 ^ (i + 1 + t) := by
    intro t ht
    linear_combination 2 ^ (i + 1 + t) * cell_balance F w a b hi (Finset.mem_range.1 ht)
  have hrow := Finset.sum_congr rfl hcells
  simp only [Finset.sum_add_distrib, ← Finset.sum_mul] at hrow
  rw [rowTotal_eq_range, rowTotal_eq_range, Finset.sum_range_succ _ i, Finset.sum_range_succ _ w,
    Finset.sum_range_succ' _ w, Finset.sum_range_succ _ w, hseed, bitValue_and]
  push_cast
  linear_combination hrow

/-- The rows one after another: the partial products up to row `i` and the errors of all cells so far. -/
theorem rowTotal_eq {i : Nat} (hi : i < w + 1) :
    (rowTotal F (w + 1) a b i : Int) =
      (∑ t ∈ Finset.range (w + 1), bitValue (bitAt a t) * 2 ^ t : Nat) *
        (∑ k ∈ Finset.range (i + 1), bitValue (bitAt b k) * 2 ^ k : Nat) +
      ∑ r ∈ Finset.Ico 1 (i + 1), ∑ t ∈ Finset.range w, netError F (w + 1) a b r (r + t) * 2 ^ (r + t) := by
  induction i with
  | zero => simp [rowTotal_zero]
  | succ i ih =>
    rw [rowTotal_succ F w a b hi, ih (by omega), Finset.sum_range_succ _ (i + 1),
      Finset.sum_Ico_succ_top (show 1 ≤ i + 1 by omega)]
    push_cast
    ring

/-- The final row passes on what stands in row `W-1`: after `n` adders their sums and the last carry are the sums and
carries they read (R77). -/
theorem finalRow_total {n : Nat} (hn : n ≤ w) :
    (∑ t ∈ Finset.range n, bitValue (sumNet F (w + 1) a b (w + 1) (w + 1 + t)) * 2 ^ (w + 1 + t)) +
        bitValue (carryNet F (w + 1) a b (w + 1) (w + n)) * 2 ^ (w + 1 + n) =
      (∑ t ∈ Finset.range n, bitValue (sumNet F (w + 1) a b w (w + (t + 1))) * 2 ^ (w + (t + 1))) +
        ∑ t ∈ Finset.range n, bitValue (carryNet F (w + 1) a b w (w + t)) * 2 ^ (w + t + 1) := by
  induction n with
  | zero =>
    rw [carryNet_of_not_cell_not_adder F (w + 1) a b]
    · simp [bitValue]
    · rw [Ne, site_eq_cell_iff]; omega
    · rw [Ne, site_eq_adder_iff]; omega
  | succ n ih =>
    have hsite : site (w + 1) (w + 1) (w + 1 + n) = .adder :=
      (site_eq_adder_iff _ _ _).2 ⟨by omega, rfl, by omega, by omega⟩
    have hpair := sumNet_carryNet_of_adder F (w + 1) a b hsite
    have hcol : w + 1 + n = w + (n + 1) := by omega
    have hleft : w + (n + 1) - 1 = w + n := by omega
    rw [hcol, hleft, Nat.add_sub_cancel] at hpair
    have hadd := weight_fullAdder (sumNet F (w + 1) a b w (w + (n + 1))) (carryNet F (w + 1) a b w (w + n))
      (carryNet F (w + 1) a b (w + 1) (w + n))
    rw [← hpair, weight] at hadd
    have hprev := ih (by omega)
    rw [Finset.sum_range_succ, Finset.sum_range_succ, Finset.sum_range_succ, hcol]
    zify at hadd hprev ⊢
    linear_combination 2 ^ (w + (n + 1)) * hadd + hprev

/-- The product is what stands in row `W-1`: the final row and the last carry resolve it (R79). -/
theorem mulWith_eq_rowTotal (aValue bValue : Nat) :
    mulWith F (w + 1) aValue bValue =
      rowTotal F (w + 1) (encodeBits aValue (w + 1)) (encodeBits bValue (w + 1)) w := by
  rw [mulWith_eq_sum, rowTotal_eq_range]
  generalize encodeBits aValue (w + 1) = a
  generalize encodeBits bValue (w + 1) = b
  have hdiagonal : ∀ k ∈ Finset.range (w + 1), bitValue (resultBit F (w + 1) a b k) * 2 ^ k =
      bitValue (sumNet F (w + 1) a b k k) * 2 ^ k := by
    intro k hk
    rw [resultBit_of_lt F (w + 1) a b (Finset.mem_range.1 hk)]
  have hfinal : ∀ t ∈ Finset.range w, bitValue (resultBit F (w + 1) a b (w + 1 + t)) * 2 ^ (w + 1 + t) =
      bitValue (sumNet F (w + 1) a b (w + 1) (w + 1 + t)) * 2 ^ (w + 1 + t) := by
    intro t ht
    have := Finset.mem_range.1 ht
    rw [resultBit_of_final_row F (w + 1) a b (by omega) (by omega)]
  have hlast : resultBit F (w + 1) a b (w + 1 + w) = carryNet F (w + 1) a b (w + 1) (w + w) := by
    have h := resultBit_last F (w + 1) a b (by omega)
    rwa [show 2 * (w + 1) - 1 = w + 1 + w by omega, show 2 * (w + 1) - 2 = w + w by omega] at h
  have htotal := finalRow_total F w a b le_rfl
  rw [show 2 * (w + 1) = w + 1 + w + 1 by omega, Finset.sum_range_succ _ (w + 1 + w), Finset.sum_range_add,
    Finset.sum_congr rfl hdiagonal, Finset.sum_congr rfl hfinal, hlast, Finset.sum_range_succ _ w,
    Finset.sum_range_succ' _ w, add_zero]
  omega

end

/-- The bits of an operand's encoding below `n` are the operand modulo `2^n`. -/
theorem sum_encodeBits (value : Nat) {W n : Nat} (hn : n ≤ W) :
    ∑ k ∈ Finset.range n, bitValue (bitAt (encodeBits value W) k) * 2 ^ k = value % 2 ^ n := by
  rw [← decodeBits_encodeBits, decodeBits_eq_sum, encodeBits_length]
  refine Finset.sum_congr rfl fun k hk => ?_
  have hkn := Finset.mem_range.1 hk
  simp [bitAt_encodeBits, hkn, hkn.trans_le hn]

section
variable (F : Cell) {W : Nat} (aValue bValue : Nat)

/-- The error identity at every row, for all naturals as operands (R89, R98). -/
theorem rowTotal_encodeBits {i : Nat} (hi : i < W) :
    (rowTotal F W (encodeBits aValue W) (encodeBits bValue W) i : Int) =
      ((aValue % 2 ^ W) * (bValue % 2 ^ (i + 1)) : Nat) +
      ∑ r ∈ Finset.Ico 1 (i + 1), ∑ j ∈ Finset.Ico r (r + W - 1),
        netError F W (encodeBits aValue W) (encodeBits bValue W) r j * 2 ^ j := by
  obtain ⟨w, rfl⟩ : ∃ w, W = w + 1 := ⟨W - 1, by omega⟩
  have hlen (r : Nat) : r + (w + 1) - 1 - r = w := by omega
  simp only [Finset.sum_Ico_eq_sum_range _ _ (_ + (w + 1) - 1), hlen]
  rw [rowTotal_eq F w _ _ hi, sum_encodeBits aValue le_rfl, sum_encodeBits bValue hi, Nat.cast_mul]

/-- The error identity, for all naturals as operands (R89, R98). -/
theorem mulWith_eq_mul_add_errors (hW : 1 ≤ W) :
    (mulWith F W aValue bValue : Int) = ((aValue % 2 ^ W) * (bValue % 2 ^ W) : Nat) +
      ∑ i ∈ Finset.Ico 1 W, ∑ j ∈ Finset.Ico i (i + W - 1),
        netError F W (encodeBits aValue W) (encodeBits bValue W) i j * 2 ^ j := by
  obtain ⟨w, rfl⟩ : ∃ w, W = w + 1 := ⟨W - 1, by omega⟩
  rw [mulWith_eq_rowTotal, rowTotal_encodeBits F aValue bValue (Nat.lt_succ_self w)]

/-- Exact cells make no error, so a row holds the partial products so far (R90). -/
theorem rowTotal_ppuExact {i : Nat} (hi : i < W) :
    rowTotal ppuExact W (encodeBits aValue W) (encodeBits bValue W) i =
      (aValue % 2 ^ W) * (bValue % 2 ^ (i + 1)) := by
  have h := rowTotal_encodeBits ppuExact aValue bValue hi
  simp only [netError, cellError_ppuExact, zero_mul, Finset.sum_const_zero, add_zero] at h
  exact_mod_cast h

theorem mulWith_ppuExact (hW : 1 ≤ W) :
    mulWith ppuExact W aValue bValue = (aValue % 2 ^ W) * (bValue % 2 ^ W) := by
  have h := mulWith_eq_mul_add_errors ppuExact aValue bValue hW
  simp only [netError, cellError_ppuExact, zero_mul, Finset.sum_const_zero, add_zero] at h
  exact_mod_cast h

/-- At `W = 1` there is no cell and so no error (R91). -/
theorem mulWith_width_one : mulWith F 1 aValue bValue = (aValue % 2) * (bValue % 2) := by
  have h := mulWith_eq_mul_add_errors F aValue bValue le_rfl
  simp only [Finset.Ico_self, Finset.sum_empty, add_zero, pow_one] at h
  exact_mod_cast h

end

/-- Settles O27: the identity for all naturals, on operands the width admits. -/
theorem productIsExactPlusWeightedCellErrors : Obligations.ProductIsExactPlusWeightedCellErrors := by
  intro F W aValue bValue hW ha hb a b
  have h := mulWith_eq_mul_add_errors F aValue bValue hW
  rwa [Nat.mod_eq_of_lt ha, Nat.mod_eq_of_lt hb] at h

/-- Settles O28. -/
theorem exactGridMultipliesRowByRow : Obligations.ExactGridMultipliesRowByRow := by
  intro W aValue bValue hW ha hb a b
  constructor
  · rw [mulWith_ppuExact aValue bValue hW, Nat.mod_eq_of_lt ha, Nat.mod_eq_of_lt hb]
  · intro i hi
    have h := rowTotal_ppuExact aValue bValue (show i < W by omega)
    rwa [Nat.mod_eq_of_lt ha] at h

/-- Settles O29. -/
theorem operandsAreMasked : Obligations.OperandsAreMasked :=
  fun p v W a b hW => ⟨(mul_mod p v W a b).symm, mulWith_ppuExact a b hW⟩

/-- Settles O30. -/
theorem widthOneMultipliesForEveryCell : Obligations.WidthOneMultipliesForEveryCell := by
  intro F a b ha hb
  rw [mulWith_width_one, Nat.mod_eq_of_lt ha, Nat.mod_eq_of_lt hb]

end Sys2Proof.Machine

/-! PROOFS. No feedback in the grid, and with it one settled value of every net (70_reset_and_hazards.md R111, R114). -/

namespace Sys2Proof.Machine

section
variable {W i j : Nat} {n : Net}

theorem mem_reads_cellAt :
    n ∈ Reader.reads W (.cellAt i j) ↔ n = .carry (i - 1) (j - 1) ∨ n = .sum (i - 1) j := by
  simp [Reader.reads]

theorem mem_reads_adderAt : n ∈ Reader.reads W (.adderAt j) ↔
    n = .sum (W - 1) j ∨ n = .carry (W - 1) (j - 1) ∨ n = .carry W (j - 1) := by
  simp [Reader.reads]

theorem mem_reads_resultAt {k : Nat} : n ∈ Reader.reads W (.resultAt k) ↔ n = resultNet W k :=
  List.mem_singleton

theorem level_of_lt (h : i < W) : level W i j = i :=
  if_pos h

theorem level_final_row : level W W j = W - 1 + (j + 1 - W) :=
  if_neg (lt_irrefl W)

/-- What a cell reads stands one row above it (R76). -/
theorem level_lt_of_read_by_cell (h : site W i j = .cell) (hn : n ∈ Reader.reads W (.cellAt i j)) :
    n.level W < level W i j := by
  obtain ⟨h1, h2, -, -⟩ := (site_eq_cell_iff W i j).1 h
  have habove (j' : Nat) : level W (i - 1) j' < level W i j := by
    rw [level_of_lt h2, level_of_lt (by omega)]
    omega
  obtain rfl | rfl := mem_reads_cellAt.1 hn
  · exact habove (j - 1)
  · exact habove j

/-- What a full adder reads stands in the row above it, or one column to its right in its own row (R77). -/
theorem level_lt_of_read_by_adder (h : site W W j = .adder) (hn : n ∈ Reader.reads W (.adderAt j)) :
    n.level W < level W W j := by
  obtain ⟨h1, -, h3, h4⟩ := (site_eq_adder_iff W W j).1 h
  have habove (j' : Nat) : level W (W - 1) j' < level W W j := by
    rw [level_final_row, level_of_lt (by omega)]
    omega
  obtain rfl | rfl | rfl := mem_reads_adderAt.1 hn
  · exact habove j
  · exact habove (j - 1)
  · rw [Net.level, level_final_row, level_final_row]
    omega

/-- No written position stands above the last adder (R114). -/
theorem level_le_of_written (h : site W i j ≠ .unwritten) : level W i j ≤ 2 * (W - 1) := by
  by_cases hi : i < W
  · rw [level_of_lt hi]
    omega
  · cases hs : site W i j with
    | rowSeed => obtain ⟨rfl, hj⟩ := (site_eq_rowSeed_iff W i j).1 hs; omega
    | diagonalSeed => exact absurd ((site_eq_diagonalSeed_iff W i j).1 hs).2.1 hi
    | cell => exact absurd ((site_eq_cell_iff W i j).1 hs).2.1 hi
    | adder =>
      obtain ⟨h1, rfl, h3, h4⟩ := (site_eq_adder_iff W i j).1 hs
      rw [level_final_row]
      omega
    | unwritten => exact absurd hs h

end

/-- Settles O24. -/
theorem readsStandAtLowerLevels : Obligations.ReadsStandAtLowerLevels :=
  fun _ _ _ => ⟨fun h _ hn => level_lt_of_read_by_cell h hn, fun h _ hn => level_lt_of_read_by_adder h hn,
    level_le_of_written⟩

section
variable {F : Cell} {W : Nat} {a b a' b' : BitSeq} {S C S' C' : Nat → Nat → Bit}

/-- In a settled assignment only cells and adders put a carry other than 0 (R73). -/
theorem GridEquations.carry_of_not_cell_not_adder (h : GridEquations F W a b S C) {i j : Nat} (hi : i ≤ W)
    (hj : j < 2 * W) (hcell : site W i j ≠ .cell) (hadder : site W i j ≠ .adder) : C i j = false := by
  rw [Ne, site_eq_cell_iff] at hcell
  rw [Ne, site_eq_adder_iff] at hadder
  exact h.carryUnwritten i j hi hj (by omega) (by omega)

/-- In a settled assignment an unwritten sum is 0 (R73). -/
theorem GridEquations.sum_of_unwritten (h : GridEquations F W a b S C) {i j : Nat} (hi : i ≤ W) (hj : j < 2 * W)
    (hs : site W i j = .unwritten) : S i j = false := by
  obtain ⟨hrow, hdiag, hcell, hadder⟩ := (site_eq_unwritten_iff W i j).1 hs
  rw [Ne, site_eq_rowSeed_iff] at hrow
  rw [Ne, site_eq_diagonalSeed_iff] at hdiag
  rw [Ne, site_eq_cell_iff] at hcell
  rw [Ne, site_eq_adder_iff] at hadder
  exact h.sumUnwritten i j hi hj hrow (by omega) (by omega)

/-- Two settled assignments agree at every position, by induction on its level: they agree on what drives it. -/
theorem GridEquations.unique (h : GridEquations F W a b S C) (h' : GridEquations F W a b S' C') {i j : Nat}
    (hi : i ≤ W) (hj : j < 2 * W) : S i j = S' i j ∧ C i j = C' i j := by
  induction hn : level W i j using Nat.strong_induction_on generalizing i j with
  | _ n ih =>
    subst hn
    have hnone (hcell : site W i j ≠ .cell) (hadder : site W i j ≠ .adder) : C i j = C' i j := by
      rw [h.carry_of_not_cell_not_adder hi hj hcell hadder, h'.carry_of_not_cell_not_adder hi hj hcell hadder]
    cases hs : site W i j with
    | rowSeed =>
      obtain ⟨rfl, hjW⟩ := (site_eq_rowSeed_iff W i j).1 hs
      exact ⟨(h.rowSeeds j hjW).trans (h'.rowSeeds j hjW).symm, hnone (by simp [hs]) (by simp [hs])⟩
    | diagonalSeed =>
      obtain ⟨h1, h2, h3⟩ := (site_eq_diagonalSeed_iff W i j).1 hs
      obtain rfl : j = W - 1 + i := by omega
      exact ⟨(h.diagonalSeeds i h1 h2).trans (h'.diagonalSeeds i h1 h2).symm, hnone (by simp [hs]) (by simp [hs])⟩
    | cell =>
      obtain ⟨h1, h2, h3, h4⟩ := (site_eq_cell_iff W i j).1 hs
      have hlower {n : Net} (hn : n ∈ Reader.reads W (.cellAt i j)) := level_lt_of_read_by_cell hs hn
      have hcarry := ih _ (hlower (.head _)) (by omega) (by omega) rfl
      have hsum := ih _ (hlower (.tail _ (.head _))) (by omega) (by omega) rfl
      have hout : (S i j, C i j) = (S' i j, C' i j) := by
        rw [h.cells i j h1 h2 h3 (by omega), h'.cells i j h1 h2 h3 (by omega), hcarry.2, hsum.1]
      exact Prod.mk.inj hout
    | adder =>
      obtain ⟨h1, rfl, h3, h4⟩ := (site_eq_adder_iff W i j).1 hs
      have hlower {n : Net} (hn : n ∈ Reader.reads i (.adderAt j)) := level_lt_of_read_by_adder hs hn
      have hsum := ih _ (hlower (.head _)) (by omega) (by omega) rfl
      have hcarry := ih _ (hlower (.tail _ (.head _))) (by omega) (by omega) rfl
      have hripple := ih _ (hlower (.tail _ (.tail _ (.head _)))) (by omega) (by omega) rfl
      have hout : (S i j, C i j) = (S' i j, C' i j) := by
        rw [h.adders j h3 (by omega), h'.adders j h3 (by omega), hsum.1, hcarry.2, hripple.2]
      exact Prod.mk.inj hout
    | unwritten =>
      rw [h.sum_of_unwritten hi hj hs, h'.sum_of_unwritten hi hj hs]
      exact ⟨rfl, hnone (by simp [hs]) (by simp [hs])⟩

/-- An assignment settled for two operands is settled for any other two with the same seeds that its cells cannot tell
apart. -/
theorem GridEquations.congr_operands (h : GridEquations F W a b S C)
    (hrow : ∀ j, j < W → (bitAt a j && bitAt b 0) = (bitAt a' j && bitAt b' 0))
    (hdiag : ∀ i, 1 ≤ i → i < W → (bitAt a (W - 1) && bitAt b i) = (bitAt a' (W - 1) && bitAt b' i))
    (hcell : ∀ i k c s, F (bitAt a k) (bitAt b i) c s = F (bitAt a' k) (bitAt b' i) c s) :
    GridEquations F W a' b' S C where
  rowSeeds j hj := (h.rowSeeds j hj).trans (hrow j hj)
  diagonalSeeds i h1 h2 := (h.diagonalSeeds i h1 h2).trans (hdiag i h1 h2)
  cells i j h1 h2 h3 h4 := (h.cells i j h1 h2 h3 h4).trans (hcell i (j - i) _ _)
  adders := h.adders
  sumUnwritten := h.sumUnwritten
  carryUnwritten := h.carryUnwritten

/-- The result bits are read inside the grid, so they follow from the nets there. -/
theorem resultBits_congr
    (h : ∀ i j, i ≤ W → j < 2 * W → sumNet F W a b i j = sumNet F W a' b' i j ∧
      carryNet F W a b i j = carryNet F W a' b' i j) :
    resultBits F W a b = resultBits F W a' b' := by
  refine List.map_congr_left fun k hk => ?_
  have hk2 : k < 2 * W := List.mem_range.1 hk
  rw [resultBit_eq, resultBit_eq]
  split_ifs with h1 h2
  · exact (h k k h1.le hk2).1
  · exact (h W k le_rfl hk2).1
  · exact (h W (2 * W - 2) le_rfl (by omega)).2

/-- Operands with the same seeds that the cells cannot tell apart have the same result. -/
theorem resultBits_congr_operands (hW : 1 ≤ W)
    (hrow : ∀ j, j < W → (bitAt a j && bitAt b 0) = (bitAt a' j && bitAt b' 0))
    (hdiag : ∀ i, 1 ≤ i → i < W → (bitAt a (W - 1) && bitAt b i) = (bitAt a' (W - 1) && bitAt b' i))
    (hcell : ∀ i k c s, F (bitAt a k) (bitAt b i) c s = F (bitAt a' k) (bitAt b' i) c s) :
    resultBits F W a b = resultBits F W a' b' := by
  have hsettled := (gridNetsFollowTheRules F W a b hW).congr_operands hrow hdiag hcell
  exact resultBits_congr fun i j hi hj => hsettled.unique (gridNetsFollowTheRules F W a' b' hW) hi hj

end

/-- Settles O21: the model's own nets are settled, and settled nets are unique. -/
theorem settledNetsExistAndAreUnique : Obligations.SettledNetsExistAndAreUnique :=
  fun F W a b hW => ⟨⟨sumNet F W a b, carryNet F W a b, gridNetsFollowTheRules F W a b hW⟩,
    fun _ _ _ _ h h' _ _ hi hj => h.unique h' hi hj⟩

end Sys2Proof.Machine

/-! PROOFS. What particular cells make of the first rows and of the grid at `W = 2` (43_array_engine.md R92 to R94). -/

namespace Sys2Proof.Machine

theorem bitAt_encodeBits_of_lt (value : Nat) {W k : Nat} (h : k < W) :
    bitAt (encodeBits value W) k = value.testBit k := by
  rw [bitAt_encodeBits, decide_eq_true h, Bool.true_and]

section
variable (F : Cell) (W : Nat) (a b : BitSeq)

theorem sumNet_of_cell {i j : Nat} (h : site W i j = .cell) :
    sumNet F W a b i j =
      (F (bitAt a (j - i)) (bitAt b i) (carryNet F W a b (i - 1) (j - 1)) (sumNet F W a b (i - 1) j)).1 :=
  congrArg Prod.fst (netAt_of_cell F W a b h)

theorem carryNet_of_cell {i j : Nat} (h : site W i j = .cell) :
    carryNet F W a b i j =
      (F (bitAt a (j - i)) (bitAt b i) (carryNet F W a b (i - 1) (j - 1)) (sumNet F W a b (i - 1) j)).2 :=
  congrArg Prod.snd (netAt_of_cell F W a b h)

variable {W}

theorem sumNet_row_zero {j : Nat} (hj : j < W) : sumNet F W a b 0 j = (bitAt a j && bitAt b 0) :=
  sumNet_of_rowSeed F W a b ((site_eq_rowSeed_iff W 0 j).2 ⟨rfl, hj⟩)

theorem carryNet_row_zero (j : Nat) : carryNet F W a b 0 j = false := by
  apply carryNet_of_not_cell_not_adder
  · rw [Ne, site_eq_cell_iff]; omega
  · rw [Ne, site_eq_adder_iff]; omega

/-- Whatever the cell, the lowest result bit is a seed (R94). -/
theorem resultBit_zero (hW : 1 ≤ W) : resultBit F W a b 0 = (bitAt a 0 && bitAt b 0) := by
  rw [resultBit_of_lt F W a b hW, sumNet_row_zero F a b hW]

theorem site_row_one {j : Nat} (h1 : 1 ≤ j) (h2 : j ≤ W - 1) : site W 1 j = .cell :=
  (site_eq_cell_iff W 1 j).2 ⟨le_rfl, by omega, h1, by omega⟩

/-- A cell of row 1 takes no carry, and a seed (R94). -/
theorem sumNet_row_one {j : Nat} (h1 : 1 ≤ j) (h2 : j ≤ W - 1) :
    sumNet F W a b 1 j = (F (bitAt a (j - 1)) (bitAt b 1) false (bitAt a j && bitAt b 0)).1 := by
  rw [sumNet_of_cell F W a b (site_row_one h1 h2), carryNet_row_zero F a b,
    sumNet_row_zero F a b (by omega)]

theorem carryNet_row_one {j : Nat} (h1 : 1 ≤ j) (h2 : j ≤ W - 1) :
    carryNet F W a b 1 j = (F (bitAt a (j - 1)) (bitAt b 1) false (bitAt a j && bitAt b 0)).2 := by
  rw [carryNet_of_cell F W a b (site_row_one h1 h2), carryNet_row_zero F a b,
    sumNet_row_zero F a b (by omega)]

/-- The one cell and the one adder at `W = 2`, and what they read (R92). -/
theorem resultBits_width_two :
    resultBits F 2 a b =
      let sc := F (bitAt a 0) (bitAt b 1) false (bitAt a 1 && bitAt b 0)
      let p := fullAdder (bitAt a 1 && bitAt b 1) sc.2 false
      [bitAt a 0 && bitAt b 0, sc.1, p.1, p.2] :=
  rfl

end

theorem mulWith_width_two (F : Cell) (a b : Nat) :
    let sc := F (a.testBit 0) (b.testBit 1) false (a.testBit 1 && b.testBit 0)
    let p := fullAdder (a.testBit 1 && b.testBit 1) sc.2 false
    mulWith F 2 a b = bitValue (a.testBit 0 && b.testBit 0) + 2 * bitValue sc.1 +
      4 * bitValue p.1 + 8 * bitValue p.2 := by
  intro sc p
  rw [mulWith, resultBits_width_two]
  simp only [bitAt_encodeBits_of_lt _ (show 0 < 2 by decide), bitAt_encodeBits_of_lt _ (show 1 < 2 by decide),
    decodeBits_cons, decodeBits_nil]
  change bitValue _ + 2 * (bitValue sc.1 + 2 * (bitValue p.1 + 2 * (bitValue p.2 + 2 * 0))) = _
  ring

/-- Settles O31. -/
theorem widthTwoClosedForm : Obligations.WidthTwoClosedForm := by
  refine ⟨fun F a b => ⟨mulWith_width_two F a b, ?_⟩, fun x y z => ?_, fun p x y z => ?_,
    fun p x y z => ppuApprox3_carry p x y false z⟩
  · simp [fullAdder]
  · simp [ppuApprox1]
  · simp [ppuApprox4]

/-- Settles O32: the cell ignores the operand bits, so operands with the same seeds settle the same grid. -/
theorem approx1ProductSeesOnlyTheSeeds : Obligations.Approx1ProductSeesOnlyTheSeeds := by
  intro W a b a' b' hW hrow hdiag
  refine congrArg decodeBits (resultBits_congr_operands hW (fun j hj => ?_) (fun i h1 h2 => ?_) fun _ _ _ _ => rfl)
  · simp only [bitAt_encodeBits_of_lt _ hj, bitAt_encodeBits_of_lt _ hW, hrow j hj]
  · simp only [bitAt_encodeBits_of_lt _ h2, bitAt_encodeBits_of_lt _ (Nat.sub_lt hW one_pos), hdiag i h1 h2]

section
variable {W : Nat} (a b : BitSeq)

/-- Row 1 of the approx1 grid passes its seeds on and puts every carry (R93). -/
theorem approx1_row_one {j : Nat} (h1 : 1 ≤ j) (h2 : j ≤ W - 1) :
    sumNet ppuApprox1 W a b 1 j = (bitAt a j && bitAt b 0) ∧ carryNet ppuApprox1 W a b 1 j = true := by
  rw [sumNet_row_one ppuApprox1 a b h1 h2, carryNet_row_one ppuApprox1 a b h1 h2]
  simp [ppuApprox1]

/-- Row 2 takes the carries of row 1, and so puts the complement of its sums on both nets (R93). -/
theorem approx1_row_two (hW : 3 ≤ W) {j : Nat} (h1 : 2 ≤ j) (h2 : j ≤ W) :
    sumNet ppuApprox1 W a b 2 j = !(sumNet ppuApprox1 W a b 1 j) ∧
      carryNet ppuApprox1 W a b 2 j = !(sumNet ppuApprox1 W a b 1 j) := by
  have hsite : site W 2 j = .cell := (site_eq_cell_iff W 2 j).2 ⟨by decide, hW, h1, by omega⟩
  have hcarry := (approx1_row_one (W := W) a b (show 1 ≤ j - 1 by omega) (by omega)).2
  rw [sumNet_of_cell ppuApprox1 W a b hsite, carryNet_of_cell ppuApprox1 W a b hsite]
  simp [ppuApprox1, hcarry]

theorem approx1_resultBit_two (hW : 3 ≤ W) : resultBit ppuApprox1 W a b 2 = !(bitAt a 2 && bitAt b 0) := by
  rw [resultBit_of_lt ppuApprox1 W a b hW, (approx1_row_two a b hW le_rfl (by omega)).1,
    (approx1_row_one a b (by decide) (by omega)).1]

end

/-- Settles O33. -/
theorem approx1RowsOneAndTwo : Obligations.Approx1RowsOneAndTwo := by
  intro W aValue bValue hW a b
  refine ⟨fun j h1 h2 => approx1_row_one a b h1 h2, resultBit_zero ppuApprox1 a b (by omega), ?_,
    fun h3 => ⟨fun j h1 h2 => approx1_row_two a b h3 h1 h2, approx1_resultBit_two a b h3⟩⟩
  rw [resultBit_of_lt ppuApprox1 W a b hW, (approx1_row_one a b le_rfl (by omega)).1]

/-- Settles O34, by running the engine. -/
theorem approx1ExtremeProducts : Obligations.Approx1ExtremeProducts := by
  unfold Obligations.Approx1ExtremeProducts
  decide

section
variable (p : OpenCells) {W : Nat} (a b : BitSeq)

/-- Row 1 of the approx4 grid: no carry, and the parity of the seed and `a[j-1]` (R94). -/
theorem approx4_row_one {j : Nat} (h1 : 1 ≤ j) (h2 : j ≤ W - 1) :
    sumNet (cellOf p .approx4) W a b 1 j = ((bitAt a j && bitAt b 0) ^^ bitAt a (j - 1)) := by
  rw [sumNet_row_one _ a b h1 h2]
  simp [cellOf, ppuApprox4]

theorem approx4_resultBit_one (hW : 2 ≤ W) :
    resultBit (cellOf p .approx4) W a b 1 = ((bitAt a 1 && bitAt b 0) ^^ bitAt a 0) := by
  rw [resultBit_of_lt _ W a b hW, approx4_row_one p a b le_rfl (by omega)]

end

/-- With approx4, whose cell ignores `b`, the operand `b` reaches the product only through the seeds (R94). -/
theorem mul_approx4_congr (p : OpenCells) {W a b b' : Nat} (hW : 1 ≤ W) (hzero : b'.testBit 0 = b.testBit 0)
    (hdiag : ∀ i, 1 ≤ i → i < W → (a.testBit (W - 1) && b'.testBit i) = (a.testBit (W - 1) && b.testBit i)) :
    mul p .approx4 W a b' = mul p .approx4 W a b := by
  refine congrArg decodeBits (resultBits_congr_operands hW (fun j hj => ?_) (fun i h1 h2 => ?_) fun _ _ _ _ => rfl)
  · simp only [bitAt_encodeBits_of_lt _ hW, hzero]
  · simp only [bitAt_encodeBits_of_lt _ h2, bitAt_encodeBits_of_lt _ (Nat.sub_lt hW one_pos), hdiag i h1 h2]

/-- Settles O35. -/
theorem fixedFactsOfEveryVariant : Obligations.FixedFactsOfEveryVariant := by
  intro p v W aValue bValue hW a b
  refine ⟨resultBit_zero _ a b hW, fun _ j h1 h2 => ⟨carryNet_row_zero _ a b _, ?_⟩, fun i j h => ?_,
    fun i j h => ?_, fun h2 => ⟨fun j h1 hj => approx4_row_one p a b h1 hj, approx4_resultBit_one p a b h2,
      fun b' hzero hdiag => mul_approx4_congr p hW hzero hdiag⟩⟩
  · exact sumNet_row_zero _ a b (by omega)
  · obtain ⟨h1, h2, -, -⟩ := (site_eq_cell_iff 2 i j).1 h
    omega
  · rw [carryNet_of_cell _ W a b h, sumNet_of_cell _ W a b h]
    exact ppuApprox3_carry p _ _ _ _

end Sys2Proof.Machine

/-! PROOFS. The five operations on the machine (43_array_engine.md R82 to R86). -/

namespace Sys2Proof.Machine

/-- Every variant multiplies at `W = 1`, where there is no cell (R91). -/
theorem mul_width_one (p : OpenCells) (v : Variant) (a b : Nat) : mul p v 1 a b = mulWith ppuExact 1 a b :=
  (mulWith_width_one (cellOf p v) a b).trans (mulWith_width_one ppuExact a b).symm

/-- Settles O36: the operation drives the exact grid's product, which is that of the masked operands. -/
theorem mulExactDrivesTheProduct : Obligations.MulExactDrivesTheProduct := by
  intro s a b hW
  have hexec : exec (.mulExact a b) s = .next (s.withProduct ((a % 2 ^ s.width) * (b % 2 ^ s.width))) := by
    rw [← mulWith_ppuExact a b hW]
    exact answer_of_pos s _ hW
  refine ⟨hexec, fun ha hb => ?_⟩
  rw [hexec, Nat.mod_eq_of_lt ha, Nat.mod_eq_of_lt hb]
  rfl

/-- Zero operands never give 0 once the grid has a cell: bit 2 of the product is 1 (R83). -/
theorem mulWith_ppuApprox1_zero_ne_zero {W : Nat} (hW : 2 ≤ W) : mulWith ppuApprox1 W 0 0 ≠ 0 := by
  obtain rfl | h3 : W = 2 ∨ 3 ≤ W := by omega
  · decide
  · intro hzero
    have hbit := testBit_mulWith ppuApprox1 W 0 0 (show 2 < 2 * W by omega)
    rw [hzero, approx1_resultBit_two _ _ h3, bitAt_encodeBits_of_lt 0 h3] at hbit
    simp at hbit

/-- Settles O37: the operation is R71 over the approx1 cell; the rule's numbers are the engine's. -/
theorem mulApprox1DrivesItsProduct : Obligations.MulApprox1DrivesItsProduct := by
  refine ⟨fun s a b hW => answer_of_pos s _ hW, fun W hW => mulWith_ppuApprox1_zero_ne_zero hW,
    fun a b => ?_, by decide, by decide, by decide, by decide, by decide, by decide, by decide⟩
  rw [mulWith_width_one, mulWith_width_one]

/-- Settles O38. -/
theorem mulApprox2DrivesItsProduct : Obligations.MulApprox2DrivesItsProduct := by
  refine ⟨fun s a b hW => answer_of_pos s _ hW, fun p => mul_width_one p .approx2, fun p => ?_⟩
  rw [mul, mulWith_width_two]
  simp [cellOf, ppuApprox2, fullAdder, bitValue]

/-- Settles O39. -/
theorem mulApprox3DrivesItsProduct : Obligations.MulApprox3DrivesItsProduct := by
  refine ⟨fun s a b hW => ?_, fun p => mul_width_one p .approx3, fun p => ?_⟩
  · have hcell : ppuApprox3 Config.openCells = fun x y c z => (!(Config.t7of3 x y c z), Config.t7of3 x y c z) := by
      funext x y c z
      exact ppuApprox3_eq Config.openCells x y c z
    rw [← hcell]
    exact answer_of_pos s _ hW
  · have hthree : (3 : Nat).testBit 0 = true ∧ (3 : Nat).testBit 1 = true := by decide
    rw [mul, mulWith_width_two, hthree.1, hthree.2]
    simp only [cellOf, ppuApprox3_eq, Bool.and_self]
    cases p.t7of3 true true false true <;> rfl

/-- Settles O40. -/
theorem mulApprox4DrivesItsProduct : Obligations.MulApprox4DrivesItsProduct := by
  refine ⟨fun s a b hW => answer_of_pos s _ hW, fun p => mul_width_one p .approx4, fun p W a hW => ?_, fun p => ?_⟩
  · rw [mul, testBit_mulWith _ W a 0 (by omega), approx4_resultBit_one p _ _ hW,
      bitAt_encodeBits_of_lt a (show 0 < W by omega), bitAt_encodeBits_of_lt 0 (show 0 < W by omega)]
    simp
  · rw [mul, mulWith_width_two]
    cases h : p.t6of4 true false false <;> simp [cellOf, ppuApprox4, fullAdder, bitValue, h]

end Sys2Proof.Machine

/-! PROOFS. The one reader of each net (43_array_engine.md R81). -/

namespace Sys2Proof.Machine

/-- The reader that reads a net, if any does: a result bit on the diagonal, in the final row and at the last carry;
else the cell or the full adder below it or to its left. `netReader_of_read` ties it to `Reader.reads`. -/
def netReader (W : Nat) : Net → Reader
  | .sum i j =>
    if i = W then .resultAt j
    else if i = j then .resultAt i
    else if i + 1 = W then .adderAt j
    else .cellAt (i + 1) j
  | .carry i j =>
    if i = W then (if j = 2 * W - 2 then .resultAt (2 * W - 1) else .adderAt (j + 1))
    else if i + 1 = W then .adderAt (j + 1)
    else .cellAt (i + 1) (j + 1)

section
variable (W : Nat)

theorem cellAt_mem_readers {i j : Nat} : Reader.cellAt i j ∈ readers W ↔ site W i j = .cell := by
  simp only [readers, List.mem_append, List.mem_flatMap, List.mem_map, List.mem_filter, List.mem_range,
    Reader.cellAt.injEq, decide_eq_true_eq, reduceCtorEq, and_false, exists_false, or_false]
  constructor
  · rintro ⟨i', -, j', ⟨-, hs⟩, rfl, rfl⟩
    exact hs
  · intro hs
    obtain ⟨h1, h2, h3, h4⟩ := (site_eq_cell_iff W i j).1 hs
    exact ⟨i, by omega, j, ⟨by omega, hs⟩, rfl, rfl⟩

theorem adderAt_mem_readers {j : Nat} : Reader.adderAt j ∈ readers W ↔ site W W j = .adder := by
  simp only [readers, List.mem_append, List.mem_flatMap, List.mem_map, List.mem_filter, List.mem_range,
    Reader.adderAt.injEq, decide_eq_true_eq, reduceCtorEq, and_false, exists_false, or_false, false_or,
    exists_eq_right, and_iff_right_iff_imp]
  intro hs
  obtain ⟨-, -, h3, h4⟩ := (site_eq_adder_iff W W j).1 hs
  omega

theorem resultAt_mem_readers {k : Nat} : Reader.resultAt k ∈ readers W ↔ k < 2 * W := by
  simp [readers]

/-- No reader is listed twice. -/
theorem readers_nodup : (readers W).Nodup := by
  have hcells (i : Nat) : (((List.range (2 * W)).filter fun j => site W i j = .cell).map (Reader.cellAt i)).Nodup :=
    (List.nodup_range.filter _).map fun _ _ h => (Reader.cellAt.inj h).2
  have hadders : (((List.range (2 * W)).filter fun j => site W W j = .adder).map Reader.adderAt).Nodup :=
    (List.nodup_range.filter _).map fun _ _ h => Reader.adderAt.inj h
  have hresults : ((List.range (2 * W)).map Reader.resultAt).Nodup :=
    List.nodup_range.map fun _ _ h => Reader.resultAt.inj h
  have hrows : ((List.range (W + 1)).flatMap fun i =>
      ((List.range (2 * W)).filter fun j => site W i j = .cell).map (Reader.cellAt i)).Nodup := by
    refine List.nodup_flatMap.2 ⟨fun i _ => hcells i, List.nodup_range.pairwise_of_forall_ne fun i _ i' _ hne => ?_⟩
    simp only [Function.onFun, List.disjoint_left, List.mem_map]
    rintro _ ⟨j, -, rfl⟩ ⟨j', -, h⟩
    exact hne (Reader.cellAt.inj h).1.symm
  refine (hrows.append hadders ?_).append hresults ?_
  · simp only [List.disjoint_left, List.mem_flatMap, List.mem_map]
    rintro _ ⟨_, _, _, _, rfl⟩ ⟨_, _, h⟩
    cases h
  · simp only [List.disjoint_left, List.mem_append, List.mem_flatMap, List.mem_map]
    rintro _ (⟨_, _, _, _, rfl⟩ | ⟨_, _, rfl⟩) ⟨_, _, h⟩ <;> cases h

/-- A reader of the grid is the one reader of each net it reads. -/
theorem netReader_of_read {r : Reader} (hr : r ∈ readers W) {n : Net} (hn : n ∈ r.reads W) : netReader W n = r := by
  cases r with
  | cellAt i j =>
    obtain ⟨h1, h2, h3, h4⟩ := (site_eq_cell_iff W i j).1 ((cellAt_mem_readers W).1 hr)
    obtain ⟨i, rfl⟩ : ∃ k, i = k + 1 := ⟨i - 1, by omega⟩
    obtain ⟨j, rfl⟩ : ∃ k, j = k + 1 := ⟨j - 1, by omega⟩
    obtain rfl | rfl := mem_reads_cellAt.1 hn
    · simp only [netReader, Nat.add_sub_cancel]
      rw [if_neg (by omega), if_neg (by omega)]
    · simp only [netReader, Nat.add_sub_cancel]
      rw [if_neg (by omega), if_neg (by omega), if_neg (by omega)]
  | adderAt j =>
    obtain ⟨h1, -, h3, h4⟩ := (site_eq_adder_iff W W j).1 ((adderAt_mem_readers W).1 hr)
    have hj : j - 1 + 1 = j := by omega
    obtain rfl | rfl | rfl := mem_reads_adderAt.1 hn
    · rw [netReader, if_neg (by omega), if_neg (by omega), if_pos (by omega)]
    · rw [netReader, if_neg (by omega), if_pos (by omega), hj]
    · rw [netReader, if_pos rfl, if_neg (by omega), hj]
  | resultAt k =>
    have hk := (resultAt_mem_readers W).1 hr
    obtain rfl := mem_reads_resultAt.1 hn
    unfold resultNet
    split_ifs with h1 h2
    · rw [netReader, if_neg (by omega), if_pos rfl]
    · rw [netReader, if_pos rfl]
    · rw [netReader, if_pos rfl, if_pos rfl, show 2 * W - 1 = k by omega]

/-- All nets that are read, each as often as it is read. -/
def readNets : List Net :=
  (readers W).flatMap (Reader.reads W)

theorem mem_readNets_iff {n : Net} :
    n ∈ readNets W ↔ netReader W n ∈ readers W ∧ n ∈ (netReader W n).reads W := by
  refine List.mem_flatMap.trans ⟨fun ⟨r, hr, hn⟩ => ?_, fun ⟨hr, hn⟩ => ⟨_, hr, hn⟩⟩
  rw [netReader_of_read W hr hn]
  exact ⟨hr, hn⟩

/-- A reader reads different nets. -/
theorem reads_nodup (hW : 1 ≤ W) (r : Reader) : (r.reads W).Nodup := by
  cases r with
  | cellAt i j => simp [Reader.reads]
  | adderAt j => simp [Reader.reads]; omega
  | resultAt k => simp [Reader.reads]

/-- No net is read twice: its reader is determined by it. -/
theorem readNets_nodup (hW : 1 ≤ W) : (readNets W).Nodup := by
  refine List.nodup_flatMap.2 ⟨fun r _ => reads_nodup W hW r, (readers_nodup W).pairwise_of_forall_ne ?_⟩
  intro r hr r' hr' hne n hn hn'
  exact hne ((netReader_of_read W hr hn).symm.trans (netReader_of_read W hr' hn'))

end

section
variable {W i j : Nat}

theorem sum_written_iff : (Net.sum i j).written W = true ↔
    (i = 0 ∧ j < W) ∨ (1 ≤ i ∧ i < W ∧ i ≤ j ∧ j + 1 ≤ i + W) ∨ (1 ≤ i ∧ i = W ∧ W ≤ j ∧ j + 2 ≤ 2 * W) := by
  rw [Net.written, decide_eq_true_eq, Ne, site_eq_unwritten_iff]
  rw [Ne, Ne, Ne, Ne, site_eq_rowSeed_iff, site_eq_diagonalSeed_iff, site_eq_cell_iff, site_eq_adder_iff]
  omega

theorem carry_written_iff : (Net.carry i j).written W = true ↔
    (1 ≤ i ∧ i < W ∧ i ≤ j ∧ j + 2 ≤ i + W) ∨ (1 ≤ i ∧ i = W ∧ W ≤ j ∧ j + 2 ≤ 2 * W) := by
  rw [Net.written, decide_eq_true_eq, site_eq_cell_iff, site_eq_adder_iff]

theorem sum_eq_resultNet_iff {k : Nat} : Net.sum i j = resultNet W k ↔
    (k < W ∧ i = k ∧ j = k) ∨ (W ≤ k ∧ k + 1 < 2 * W ∧ i = W ∧ j = k) := by
  unfold resultNet
  split_ifs <;> simp <;> omega

theorem carry_eq_resultNet_iff {k : Nat} : Net.carry i j = resultNet W k ↔
    W ≤ k ∧ 2 * W ≤ k + 1 ∧ i = W ∧ j = 2 * W - 2 := by
  unfold resultNet
  split_ifs <;> simp <;> omega

/-- Exactly the written sums are read. -/
theorem sum_mem_readNets_iff (hW : 1 ≤ W) : Net.sum i j ∈ readNets W ↔ (Net.sum i j).written W = true := by
  rw [mem_readNets_iff, sum_written_iff, netReader]
  split_ifs with h1 h2 h3
  · rw [resultAt_mem_readers, mem_reads_resultAt, sum_eq_resultNet_iff]
    omega
  · rw [resultAt_mem_readers, mem_reads_resultAt, sum_eq_resultNet_iff]
    omega
  · rw [adderAt_mem_readers, site_eq_adder_iff, mem_reads_adderAt]
    simp only [Net.sum.injEq, reduceCtorEq, or_false, and_true, true_and]
    omega
  · rw [cellAt_mem_readers, site_eq_cell_iff, mem_reads_cellAt]
    simp only [Net.sum.injEq, reduceCtorEq, false_or, and_true]
    omega

/-- The carries read are those written, and the two kinds of constants 0 that are read (R73, R81). -/
theorem carry_mem_readNets_iff (hW : 1 ≤ W) : Net.carry i j ∈ readNets W ↔
    (Net.carry i j).written W = true ∨ (i = 0 ∧ j + 2 ≤ W) ∨ (i = W ∧ j = W - 1) := by
  rw [mem_readNets_iff, carry_written_iff, netReader]
  split_ifs with h1 h2 h3
  · rw [resultAt_mem_readers, mem_reads_resultAt, carry_eq_resultNet_iff]
    omega
  · rw [adderAt_mem_readers, site_eq_adder_iff, mem_reads_adderAt]
    simp only [Net.carry.injEq, reduceCtorEq, false_or, true_and]
    omega
  · rw [adderAt_mem_readers, site_eq_adder_iff, mem_reads_adderAt]
    simp only [Net.carry.injEq, reduceCtorEq, false_or, true_and]
    omega
  · rw [cellAt_mem_readers, site_eq_cell_iff, mem_reads_cellAt]
    simp only [Net.carry.injEq, reduceCtorEq, or_false]
    omega

theorem mem_readNets_of_written (hW : 1 ≤ W) {n : Net} (h : n.written W = true) : n ∈ readNets W := by
  cases n with
  | sum i j => exact (sum_mem_readNets_iff hW).2 h
  | carry i j => exact (carry_mem_readNets_iff hW).2 (.inl h)

end

/-- Settles O22: the nets read are the written ones and the constants 0 (`sum_mem_readNets_iff`,
`carry_mem_readNets_iff`), and none is read twice (`readNets_nodup`). -/
theorem everyWrittenNetIsReadExactlyOnce : Obligations.EveryWrittenNetIsReadExactlyOnce := by
  intro W hW read
  refine ⟨fun i j => ?_, fun i j => ?_, fun n hn => ?_, fun n => ?_, fun i => ⟨fun h => ?_, fun h => ?_⟩⟩
  · rw [sum_written_iff]
    omega
  · rw [carry_written_iff]
    omega
  · exact List.count_eq_one_of_mem (readNets_nodup W hW) (mem_readNets_of_written hW hn)
  · change n ∈ readNets W ∧ _ ↔ _
    cases n with
    | sum i j => simp [sum_mem_readNets_iff hW]
    | carry i j =>
      rw [carry_mem_readNets_iff hW, ← Bool.not_eq_true, carry_written_iff]
      simp only [Net.carry.injEq, exists_eq_right_right']
      omega
  · have := sum_written_iff.1 ((sum_mem_readNets_iff hW).1 h)
    omega
  · have := (carry_mem_readNets_iff hW).1 h
    rw [carry_written_iff] at this
    omega

end Sys2Proof.Machine

/-! PROOFS. The size of the grid (43_array_engine.md R87). -/

namespace Sys2Proof.Machine

/-- The map of the grid as one list, row by row. -/
def gridSites (W : Nat) : List Site :=
  (List.range (W + 1)).flatMap fun i => (List.range (2 * W)).map fun j => site W i j

/-- What drives `n` neighbouring positions in each of the rows `lo..hi-1`, and none elsewhere, stands
`(hi - lo) * n` times on the map. -/
theorem count_gridSites {W lo hi n : Nat} {x : Site} (first : Nat → Nat)
    (hsite : ∀ i j, site W i j = x ↔ (lo ≤ i ∧ i < hi) ∧ first i ≤ j ∧ j < first i + n)
    (hhi : hi ≤ W + 1) (hcol : ∀ i, lo ≤ i → i < hi → first i + n ≤ 2 * W) :
    (gridSites W).count x = (hi - lo) * n := by
  have hrow (i : Nat) : ((List.range (2 * W)).map fun j => site W i j).count x =
      if lo ≤ i ∧ i < hi then n else 0 := by
    have hcard : ((List.range (2 * W)).map fun j => site W i j).count x =
        ((Finset.range (2 * W)).filter fun j => site W i j = x).card := by
      rw [List.count, List.countP_map, List.countP_eq_length_filter]
      rfl
    rw [hcard]
    split_ifs with h
    · have hIco : ((Finset.range (2 * W)).filter fun j => site W i j = x) = Finset.Ico (first i) (first i + n) := by
        ext j
        have := hcol i h.1 h.2
        rw [Finset.mem_filter, Finset.mem_range, Finset.mem_Ico, hsite]
        omega
      rw [hIco, Nat.card_Ico, Nat.add_sub_cancel_left]
    · rw [Finset.card_eq_zero, Finset.filter_eq_empty_iff]
      intro j _ hj
      exact h ((hsite i j).1 hj).1
  have hrows : ((Finset.range (W + 1)).filter fun i => lo ≤ i ∧ i < hi) = Finset.Ico lo hi := by
    ext i
    rw [Finset.mem_filter, Finset.mem_range, Finset.mem_Ico]
    omega
  calc (gridSites W).count x
      = ∑ i ∈ Finset.range (W + 1), ((List.range (2 * W)).map fun j => site W i j).count x := List.count_flatMap
    _ = ∑ i ∈ Finset.range (W + 1), if lo ≤ i ∧ i < hi then n else 0 := Finset.sum_congr rfl fun i _ => hrow i
    _ = (hi - lo) * n := by
      rw [← Finset.sum_filter, hrows, Finset.sum_const, Nat.card_Ico, smul_eq_mul]

/-- Settles O23: one row of `W` seeds, then `W-1` rows of one seed and `W-1` cells, and one row of `W-1` adders. -/
theorem gridSizeIsQuadratic : Obligations.GridSizeIsQuadratic := by
  intro W hW sites
  have hrowSeeds : sites.count .rowSeed = (1 - 0) * W :=
    count_gridSites (fun _ => 0) (fun i j => by rw [site_eq_rowSeed_iff]; omega) (by omega) (by omega)
  have hdiagonalSeeds : sites.count .diagonalSeed = (W - 1) * 1 :=
    count_gridSites (fun i => W + i - 1) (fun i j => by rw [site_eq_diagonalSeed_iff]; omega) (by omega) (by omega)
  have hcells : sites.count .cell = (W - 1) * (W - 1) :=
    count_gridSites (fun i => i) (fun i j => by rw [site_eq_cell_iff]; omega) (by omega) (by omega)
  have hadders : sites.count .adder = (W + 1 - W) * (W - 1) :=
    count_gridSites (fun _ => W) (fun i j => by rw [site_eq_adder_iff]; omega) le_rfl (by omega)
  refine ⟨by omega, by rw [hcells, sq], by rw [hadders]; simp, ?_⟩
  obtain ⟨w, rfl⟩ : ∃ w, W = w + 1 := ⟨W - 1, by omega⟩
  rw [Nat.add_sub_cancel, show 2 * (w + 1) - 1 = 2 * w + 1 by omega]
  ring

end Sys2Proof.Machine
